-- ==== Sys2Proof/Word.lean ====
section
/-! DEFINITION. The word types of the block and of its host: register and bus words, draws, binary
floating-point patterns, command words. -/

namespace Sys2Proof

/-- A 64-bit register or bus value (00_scope.md R7). -/
abbrev Word := BitVec 64

/-- A 32-bit output of one advance, and the host's 32-bit integers (R7, R151). -/
abbrev Draw := BitVec 32

/-- The 8-bit command word `cmd_op` (30_encoding.md R60). -/
abbrev OpByte := BitVec 8

/-- The bit pattern of a binary32 value of the host (45_host_sequences.md R157). -/
abbrev Binary32 := BitVec 32

/-- The bit pattern of a binary64 value of the host (R157). -/
abbrev Binary64 := BitVec 64

end Sys2Proof
end

