-- ==== Sys2Proof/Syntax.lean ====
section
/-! DEFINITION. The commands of the block, whole (spec/opcode_table.json, 30_encoding.md R67), what stands on its
port (R60), and the host's own syntax: the script lines of R69 and the pseudo-instructions of R70. -/

namespace Sys2Proof

/-- One constructor per row of the opcode table. SEED and SETSTATE use `cmd_data`; the other three ignore it and
so have no operand (30_encoding.md R66). -/
inductive Instr where
  /-- NEXT32, `cmd_op` 0x01: draw the next 32-bit output (40_advance.md R106). -/
  | next32
  /-- SEED, `cmd_op` 0x02: reinitialise from a seed (41_seed_state.md R130). -/
  | seed (data : Word)
  /-- GETSEED, `cmd_op` 0x03: read the last seed (R132). -/
  | getseed
  /-- SETSTATE, `cmd_op` 0x04: write the state word (R133). -/
  | setstate (data : Word)
  /-- GETSTATE, `cmd_op` 0x05: read the state word (R134). -/
  | getstate
  deriving DecidableEq, Repr

/-- What the host presents as one command: the pair `(op, data)` of R64. -/
structure Command where
  op : OpByte
  data : Word
  deriving DecidableEq, Repr

/-- The input pins at one rising edge of `clk` (R60). -/
structure PortIn where
  rst : Bool
  cmdValid : Bool
  cmdOp : OpByte
  cmdData : Word
  deriving DecidableEq, Repr

/-- The output pins during one clock cycle (R60). -/
structure PortOut where
  cmdReady : Bool
  rspValid : Bool
  rspData : Word
  rspErr : Bool
  deriving DecidableEq, Repr

/-- The input pins of a host that presents nothing. -/
def PortIn.idle : PortIn := ⟨false, false, 0#8, 0#64⟩

/-- The input pins of a host that presents the command `c`. -/
def PortIn.present (c : Command) : PortIn := ⟨false, true, c.op, c.data⟩

/-- The input pins of a host that holds reset. -/
def PortIn.reset : PortIn := ⟨true, false, 0#8, 0#64⟩

/-! ## The command script of R69 -/

/-- The mnemonics of R67. -/
inductive Mnemonic where
  | next32 | seed | getseed | setstate | getstate
  deriving DecidableEq, Repr

/-- The operand of a script line: a number (R69), or the name of an earlier result, as program P2 of
95_test_vectors.md writes `SETSTATE s`. -/
inductive ScriptOperand where
  | number (n : Nat)
  | result (name : List Char)
  deriving DecidableEq, Repr

/-- One line of a command script (R69). -/
inductive ScriptLine where
  /-- A line beginning with a semicolon. -/
  | comment (text : List Char)
  /-- A command, perhaps with a name for its result. -/
  | command (result : Option (List Char)) (mnemonic : Mnemonic) (operand : Option ScriptOperand)
  deriving DecidableEq, Repr

/-! ## The pseudo-instructions of R70 -/

/-- The host-side operations that expand to block commands and host arithmetic. `i32` operands are 32-bit
two's-complement patterns, floating-point operands binary32 patterns. -/
inductive Pseudo where
  /-- NEXT32 with the response discarded. -/
  | advance
  /-- BOUNDED b (R151). -/
  | bounded (b : BitVec 32)
  /-- RANGED f, t (R155). -/
  | ranged (f t : BitVec 32)
  /-- NEXTF32 (R158). -/
  | nextf32
  /-- NEXTF64 (R160). -/
  | nextf64
  /-- FRANGE f, t (R161). -/
  | frange (f t : Binary32)
  /-- NORMAL m, d (R162). -/
  | normal (m d : Binary32)
  /-- RANDOMIZE, with the value its read of HOST_TIME gives (R164). -/
  | randomize (hostTime : Word)
  deriving DecidableEq, Repr

end Sys2Proof
end

