-- ==== Sys2Proof/WellFormed.lean ====
section
/-! DEFINITION. Which terms of the syntax the spec admits: command words, instructions, script lines, and the
preconditions of the pseudo-instructions. -/

namespace Sys2Proof

/-- The reserved field `cmd_op[7:3]` is 0b00000 (30_encoding.md R65). -/
def OpByte.rsvZero (op : OpByte) : Bool := op.extractLsb' 3 5 == 0#5

/-- The opcode field `cmd_op[2:0]` is none of 0b000, 0b110, 0b111 (R68). -/
def OpByte.opcAssigned (op : OpByte) : Bool :=
  op.extractLsb' 0 3 != 0#3 && op.extractLsb' 0 3 != 6#3 && op.extractLsb' 0 3 != 7#3

/-- A legal command: 5 of the 256 command words, whatever the data (R68). -/
def Command.legal (c : Command) : Bool := c.op.rsvZero && c.op.opcAssigned

/-- Every instruction is well formed: its only operand is a 64-bit word and every value of it is legal (R68,
41_seed_state.md R130, R133). -/
def Instr.wellFormed : Instr → Bool
  | .next32 => true
  | .seed _ => true
  | .getseed => true
  | .setstate _ => true
  | .getstate => true

/-- A numeric operand is an unsigned 64-bit integer (R69). -/
def ScriptOperand.wellFormed : ScriptOperand → Bool
  | .number n => n < 2 ^ 64
  | .result name => !name.isEmpty

/-- SEED and SETSTATE take one operand, the other mnemonics none (R69). -/
def Mnemonic.takesOperand : Mnemonic → Bool
  | .next32 => false
  | .seed => true
  | .getseed => false
  | .setstate => true
  | .getstate => false

/-- A script line has the operand its mnemonic takes, no other, and it fits (R69). -/
def ScriptLine.wellFormed : ScriptLine → Bool
  | .comment _ => true
  | .command _ m none => !m.takesOperand
  | .command _ m (some o) => m.takesOperand && o.wellFormed

/-- The caller's preconditions: BOUNDED never gets 0 (45_host_sequences.md R153), RANGED never the full range
(R156). -/
def Pseudo.wellFormed : Pseudo → Bool
  | .advance => true
  | .bounded b => b != 0#32
  | .ranged f t => (f.toInt - t.toInt).natAbs + 1 != 2 ^ 32
  | .nextf32 => true
  | .nextf64 => true
  | .frange _ _ => true
  | .normal _ _ => true
  | .randomize _ => true

end Sys2Proof
end

