-- ==== Sys2Proof/Decode.lean ====
section
/-! DEFINITION. From command words to instructions and back (30_encoding.md R65 to R68, spec/opcode_table.json). -/

namespace Sys2Proof

/-- Why a command word is no instruction. One cause exists (60_exceptions.md R203). -/
inductive DecodeError where
  /-- The word names no command (R68, R201). -/
  | illegalCommand (op : OpByte)
  deriving DecidableEq, Repr

/-- The reserved field `rsv` = `cmd_op[7:3]` (R65). -/
def rsvField (op : OpByte) : BitVec 5 := op.extractLsb' 3 5

/-- The opcode field `opc` = `cmd_op[2:0]` (R65). -/
def opcField (op : OpByte) : BitVec 3 := op.extractLsb' 0 3

/-- The opcode map of R67, for a word whose reserved field is 0. -/
def decodeOpc (opc : BitVec 3) (data : Word) : Option Instr :=
  if opc = 0b001#3 then some .next32
  else if opc = 0b010#3 then some (.seed data)
  else if opc = 0b011#3 then some .getseed
  else if opc = 0b100#3 then some (.setstate data)
  else if opc = 0b101#3 then some .getstate
  else none

/-- Decode a command. Total: a word with `rsv` ≠ 0 or an unassigned `opc` is rejected by name (R68). -/
def decode (c : Command) : Except DecodeError Instr :=
  if rsvField c.op = 0#5 then
    match decodeOpc (opcField c.op) c.data with
    | some i => .ok i
    | none => .error (.illegalCommand c.op)
  else .error (.illegalCommand c.op)

/-- The opcode of an instruction (R67). -/
def opcOf : Instr → BitVec 3
  | .next32 => 0b001#3
  | .seed _ => 0b010#3
  | .getseed => 0b011#3
  | .setstate _ => 0b100#3
  | .getstate => 0b101#3

/-- What the host puts on `cmd_data` for an instruction: its operand, and 0 where it takes none (R66, R69). -/
def dataOf : Instr → Word
  | .next32 => 0#64
  | .seed data => data
  | .getseed => 0#64
  | .setstate data => data
  | .getstate => 0#64

/-- Encode an instruction: `rsv` = 0b00000 above its opcode, and its data (R65, R67). -/
def encode (i : Instr) : Command := ⟨0b00000#5 ++ opcOf i, dataOf i⟩

/-- The command whose bits are `w`, of which only the low `nbits` count: bits 7..0 are `cmd_op`, and `cmd_data`
follows from bit 8 on. -/
def commandOfWord (nbits w : Nat) : Command :=
  ⟨BitVec.ofNat 8 (w % 2 ^ nbits), BitVec.ofNat 64 (w % 2 ^ nbits / 2 ^ 8)⟩

/-- The instruction the decoder reads from a word numbered as the opcode table numbers it. -/
def decodeTableWord (nbits w : Nat) : Option Instr :=
  match decode (commandOfWord nbits w) with
  | .ok i => some i
  | .error _ => none

end Sys2Proof
end

