-- ==== Sys2Proof/Config.lean ====
section
/-! DEFINITION. What is fixed for the machine: the hardwired constants of 00_scope.md R8 and R9, the open
parameters of R10, R11 and 20_memory.md R45, and the free values of 30_encoding.md R63. -/

namespace Sys2Proof.Config

/-- The LCG multiplier (R8). -/
def MULT : Word := 6364136223846793005#64

/-- The default increment before it is made odd (R8). -/
def DEFAULT_INC : Word := 1442695040888963407#64

/-- The seed that reset uses (R8, 70_reset_and_hazards.md R221). -/
def DEFAULT_SEED : Word := 12047754176567800795#64

/-- The one value a seed operation writes to `INC` (R9). -/
def INC_SEEDED : Word := (DEFAULT_INC <<< 1) ||| 1#64

/-! The latencies of R10 are open positive integers. Each is one more than an open natural number, so that
nothing but its being positive is known of it. -/

/-- `LAT_NEXT32` less one: open (R10, D14). -/
opaque latNext32LessOne : Nat

/-- `LAT_SEED` less one: open (R10, D14). -/
opaque latSeedLessOne : Nat

/-- `LAT_GETSEED` less one: open (R10, D14). -/
opaque latGetseedLessOne : Nat

/-- `LAT_SETSTATE` less one: open (R10, D14). -/
opaque latSetstateLessOne : Nat

/-- `LAT_GETSTATE` less one: open (R10, D14). -/
opaque latGetstateLessOne : Nat

/-- `LAT_ILLEGAL` less one: open (R10, D14). -/
opaque latIllegalLessOne : Nat

/-- `RESET_CYCLES` less one: open (R10, D14). -/
opaque resetCyclesLessOne : Nat

/-- Cycles from the acceptance of a NEXT32 to its response (R10). -/
def LAT_NEXT32 : Nat := latNext32LessOne + 1

/-- Cycles from the acceptance of a SEED to its response (R10). -/
def LAT_SEED : Nat := latSeedLessOne + 1

/-- Cycles from the acceptance of a GETSEED to its response (R10). -/
def LAT_GETSEED : Nat := latGetseedLessOne + 1

/-- Cycles from the acceptance of a SETSTATE to its response (R10). -/
def LAT_SETSTATE : Nat := latSetstateLessOne + 1

/-- Cycles from the acceptance of a GETSTATE to its response (R10). -/
def LAT_GETSTATE : Nat := latGetstateLessOne + 1

/-- Cycles from the acceptance of an illegal command to its error response (R10). -/
def LAT_ILLEGAL : Nat := latIllegalLessOne + 1

/-- The least number of rising edges the host holds `rst` (R10, 70_reset_and_hazards.md R220). -/
def RESET_CYCLES : Nat := resetCyclesLessOne + 1

/-- Where a host maps the port, if it memory-maps it: open (20_memory.md R45, D7). No rule depends on it, and
nothing of the model reads it. -/
opaque PORT_MAPPING : Option Nat

/-- FREE VALUE: what stands on `rsp_data` in a cycle with `rsp_valid` = 0 (30_encoding.md R63,
93_implementation_defined.md section 2), indexed by the model's counter of edges. One function for all instances and
runs: DESIGN CHOICE (log 5). -/
opaque freeRspData : Nat → Word

/-- FREE VALUE: what stands on `rsp_err` in a cycle with `rsp_valid` = 0 (R63); one function likewise (log 5). -/
opaque freeRspErr : Nat → Bool

/-- The open parameters of the HOST (R11), which the host sequences take as an argument: a statement about a
sequence holds for every value of them. `TAU_F` is any binary64 value, so that a τ already rounded to binary32
is one of its values; whether the host takes the product with τ in binary64 before narrowing it is open too
(45_host_sequences.md R162, 90_conflicts.md C5). The two `nan` fields give the bit pattern of a NaN result, which no
rule fixes (log 9). -/
structure HostParams where
  /-- The value of 2π the host uses. -/
  TAU_F : Binary64
  /-- The host rounds the product of τ and its draw to binary64 first (R162, C5). -/
  tauProductInBinary64 : Bool
  /-- The binary32 value of the `1e-5` epsilon. -/
  EPS_F : Binary32
  /-- The host's single-precision natural logarithm. -/
  HOST_LOG : Binary32 → Binary32
  /-- The host's single-precision cosine. -/
  HOST_COS : Binary32 → Binary32
  /-- The host's single-precision square root. -/
  HOST_SQRT : Binary32 → Binary32
  /-- Sign and payload of a NaN that a binary32 operation gives. -/
  nan32 : List Binary32 → Binary32
  /-- Sign and payload of a widened NaN. -/
  nan64 : Binary32 → Binary64

end Sys2Proof.Config
end

