-- ==== Sys2Proof/Machine/State.lean ====
section
/-! DEFINITION. The state of the block (10_state.md), as plain data, the reasons a run stops, and the state right
after reset. -/

namespace Sys2Proof.Machine

/-- The three architectural registers (10_state.md R20). -/
structure Registers where
  /-- `STATE`, the generator position (R21). -/
  state : Word
  /-- `INC`, the LCG increment (R22). -/
  inc : Word
  /-- `SEED`, the last seed (R24). -/
  seed : Word
  deriving DecidableEq, Repr

/-- One response: `rsp_data` and `rsp_err` (30_encoding.md R60). -/
structure Response where
  data : Word
  err : Bool
  deriving DecidableEq, Repr

/-- The hidden intermediate values of a SEED that is executing (10_state.md R30 (a), 41_seed_state.md R131). -/
structure SeedStages where
  /-- The state after the first advance. -/
  afterFirstAdvance : Word
  /-- The state after the seed is added. -/
  afterAddition : Word
  deriving DecidableEq, Repr

/-- The command in flight: the response it will get, the clock cycles left until that response is presented, and
what a SEED holds while it executes (30_encoding.md R62, R63). -/
structure InFlight where
  rsp : Response
  left : Nat
  stages : Option SeedStages
  deriving DecidableEq, Repr

/-- The state of the block between two rising edges of `clk`, with the pin values its host will present. -/
structure State where
  /-- `STATE`, `INC`, `SEED` (R20). -/
  regs : Registers
  /-- The command in flight; `BUSY` is set exactly while there is one (R30 (b), R62). -/
  inflight : Option InFlight
  /-- The response presented in this cycle: `rsp_valid` = 1 exactly while there is one (R63). -/
  rsp : Option Response
  /-- How many rising edges in a row have seen `rst` = 1 (70_reset_and_hazards.md R220). -/
  rstEdges : Nat
  /-- The input pins at the coming rising edges, oldest first (30_encoding.md R60). -/
  inputs : List PortIn
  /-- The model's own index into the free values of the idle response bus: one per edge. -/
  freeIndex : Nat
  deriving DecidableEq, Repr

/-- `BUSY`: a command is in flight (R30 (b)). -/
def State.busy (s : State) : Bool := s.inflight.isSome

/-- The reasons a run stops with a fault. -/
inductive Fault where
  /-- Raised by the machine's step when `rst` returns to 0 before `RESET_CYCLES` rising edges saw it at 1: the
  host broke 70_reset_and_hazards.md R220 and no rule says what the registers then hold. Safe: the machine stops
  where the hardware goes on in an unstated way. -/
  | resetTooShort
  /-- Raised by the CHECKED step of Safety.lean, never by the machine's own step, when an illegal command word is
  accepted: 60_exceptions.md R201 makes IllegalCommand (cause code 1) a fault of the run that issued it. Safe. -/
  | illegalCommand (op : OpByte)
  /-- Raised by the host's BOUNDED for the bound 0 (45_host_sequences.md R153). Safe: it is the host fault
  BoundZero of the spec. -/
  | boundZero
  /-- Raised by the host's RANGED for the full range (R156). Safe: it is the host fault RangeFull of the spec. -/
  | rangeFull
  /-- Raised by a host sequence that receives `rsp_err` = 1 (R150). Safe: it is the host fault BlockError of the
  spec. -/
  | blockError
  deriving DecidableEq, Repr

/-- The reasons a run is refused. -/
inductive Refusal where
  /-- Raised by an arm of `exec` whose instruction has no meaning yet; no arm does. Safe. -/
  | notModelled (mnemonic : String)
  /-- Raised by the host's leading-zero count at 0, which the notation leaves undefined (00_scope.md R13,
  93_implementation_defined.md section 1). No sequence reaches it. Safe. -/
  | leadingZerosOfZero
  /-- Raised by the host's rejection loop when the fuel it runs under ends before a draw is accepted
  (45_host_sequences.md R152). Safe. -/
  | outOfFuel
  deriving DecidableEq, Repr

/-- What happens at a rising edge of `clk`. -/
inductive EdgeEvent where
  /-- `rst` = 1. -/
  | reset
  /-- `rst` has returned to 0 too soon. -/
  | resetTooShort
  /-- A command is in flight. -/
  | busy (f : InFlight)
  /-- A command is accepted. -/
  | command (c : Command)
  /-- Nothing is presented. -/
  | idle
  deriving DecidableEq, Repr

/-- The register values after reset (10_state.md R31). -/
def Registers.reset : Registers :=
  ⟨0xA81D966E14D85C11#64, 0x280AF6FDEECF029F#64, 0xA7323897838D73DB#64⟩

/-- The machine right after reset (R31, 70_reset_and_hazards.md R221): the registers at their reset values,
`BUSY` = 0, no response, reset released, no pin values listed yet. -/
def State.reset : State :=
  { regs := Registers.reset, inflight := none, rsp := none, rstEdges := 0, inputs := [], freeIndex := 0 }

end Sys2Proof.Machine
end

