-- ==== Sys2Proof/Machine/Operands.lean ====
section
/-! DEFINITION. How operands are assembled and responses formed (30_encoding.md R66): the data operand unmodified,
the response data of each kind of command. -/

namespace Sys2Proof.Machine

/-- `zext_64` of a 32-bit value (00_scope.md R12). -/
def zext64 (v : Draw) : Word := v.setWidth 64

/-- `u32(v)`, the truncation of a 64-bit value (R12). -/
def u32 (v : Word) : Draw := v.setWidth 32

/-- The 64-bit operand of SEED and SETSTATE: `cmd_data` as it is, with no extension, scaling or shift (R66). -/
def dataOperand (data : Word) : Word := data

/-- The response data of NEXT32: the output zero-extended, so `rsp_data[63:32]` = 0 (R66). -/
def drawResponseData (out : Draw) : Word := zext64 out

/-- The response data of a command that returns a register, all 64 bits (R66). -/
def registerResponseData (reg : Word) : Word := reg

/-- The response data of SEED, SETSTATE and an illegal command (R66). -/
def noResponseData : Word := 0#64

end Sys2Proof.Machine
end

