-- ==== Sys2Proof/Machine/Flags.lean ====
section
/-! DEFINITION. The block has no flags and no condition codes (10_state.md R26). Its only status is the error bit of
a response, which no command can read back. -/

namespace Sys2Proof.Machine

/-- The cause code of IllegalCommand, the only cause; `rsp_err` = 1 is its code (60_exceptions.md R201). -/
def illegalCommandCode : BitVec 1 := 1#1

/-- `rsp_err` of every legal command (30_encoding.md R66). -/
def legalErrBit : Bool := false

/-- `rsp_err` of an illegal command (R201). -/
def illegalErrBit : Bool := illegalCommandCode == 1#1

/-- The response of a legal command with data `d` (R66). -/
def okResponse (d : Word) : Response := ⟨d, legalErrBit⟩

/-- The error response (R201): no data, error bit set. -/
def errorResponse : Response := ⟨noResponseData, illegalErrBit⟩

end Sys2Proof.Machine
end

