-- ==== Sys2Proof/Machine/Ops.lean ====
section
/-! DEFINITION. The operations the meanings and the step are made of: the advance datapath (40_advance.md), the
response primitive and the error response (60_exceptions.md), and the port at a rising edge (30_encoding.md,
70_reset_and_hazards.md). -/

namespace Sys2Proof.Machine

/-! ## The advance datapath -/

/-- The LCG multiplier-adder: `old * MULT + (INC | 1)` modulo 2^64 (40_advance.md R101). The literal factor stands
first because Lean's kernel multiplies by recursion on the second one. -/
def lcgNext (old inc : Word) : Word := Config.MULT * old + (inc ||| 1#64)

/-- The XSH mixer: `u32(((old >> 18) ^ old) >> 27)` (R102, 90_conflicts.md C2). -/
def xshMix (old : Word) : Draw := u32 (((old >>> 18) ^^^ old) >>> 27)

/-- The rotation amount `old[63:59]` (R103). -/
def rotAmount (old : Word) : BitVec 5 := old.extractLsb' 59 5

/-- The rotate-right barrel shifter: `(x >> r) | (x << ((-r) & 31))` on 32-bit values (R104, 00_scope.md R13). -/
def rotr32 (x : Draw) (r : BitVec 5) : Draw :=
  (x >>> r.toNat) ||| (x <<< ((-(r.setWidth 32)) &&& 31#32).toNat)

/-- The output permutation, a function of the old state alone (R100). -/
def advanceOutput (old : Word) : Draw := rotr32 (xshMix old) (rotAmount old)

/-- The advance step: the output comes from the old state, only `STATE` is written (R105). -/
def Registers.advance (r : Registers) : Draw × Registers :=
  (advanceOutput r.state, { r with state := lcgNext r.state r.inc })

/-! ## Responses, and taking the one exception -/

/-- `rsp(d, e)` with the register writes of its command: the registers are written, the command is in flight
(`BUSY` = 1), and its response is presented `latency` cycles after this edge (00_scope.md R14, 30_encoding.md R62,
R63). `stages` is what a SEED holds while it executes (10_state.md R30). -/
def State.respond (s : State) (regs : Registers) (rsp : Response) (latency : Nat) (stages : Option SeedStages) :
    State :=
  { s with regs := regs, inflight := some ⟨rsp, latency, stages⟩ }

/-- TAKING THE EXCEPTION `raise IllegalCommand(op)`: the response (0, 1), and no register written. Nothing else is
recorded, no mode changes and control goes nowhere (60_exceptions.md R201, R202, R206). There is no return from it:
the block accepts the next command with the registers as they were (R207). -/
def State.raiseIllegalCommand (s : State) : State :=
  s.respond s.regs errorResponse Config.LAT_ILLEGAL none

/-! ## The port -/

/-- The input pins of the current cycle, which the next rising edge samples: idle where nothing is listed. -/
def State.pinsIn (s : State) : PortIn := s.inputs.headD PortIn.idle

/-- `cmd_ready = (rst = 0) and (BUSY = 0)` (30_encoding.md R62). -/
def State.cmdReady (s : State) : Bool := !s.pinsIn.rst && !s.busy

/-- The response presented in the current cycle: none while `rst` = 1 (70_reset_and_hazards.md R220). -/
def State.presented (s : State) : Option Response := if s.pinsIn.rst then none else s.rsp

/-- The output pins of the current cycle (R60). With no response presented, data and error bit are free (R63). DESIGN
CHOICE, unsafe: the free values are one function of `freeIndex` for every block, so two instances (60_exceptions.md
R211), or two runs, at equal `freeIndex` show equal idle values, which no rule says (log 5). -/
def State.pinsOut (s : State) : PortOut :=
  match s.presented with
  | some r => ⟨s.cmdReady, true, r.data, r.err⟩
  | none => ⟨s.cmdReady, false, Config.freeRspData s.freeIndex, Config.freeRspErr s.freeIndex⟩

/-- `rst` has returned to 0 before `RESET_CYCLES` edges saw it at 1 (R220). -/
def State.resetCutShort (s : State) : Bool := 0 < s.rstEdges && s.rstEdges < Config.RESET_CYCLES

/-- What the coming rising edge does. Reset comes before everything (60_exceptions.md R205); while a command is in
flight nothing is accepted (R61, R62). -/
def State.event (s : State) : EdgeEvent :=
  if s.pinsIn.rst then .reset
  else if s.resetCutShort then .resetTooShort
  else match s.inflight with
    | some f => .busy f
    | none => if s.pinsIn.cmdValid then .command ⟨s.pinsIn.cmdOp, s.pinsIn.cmdData⟩ else .idle

/-- A rising edge passes: the pins are sampled, and a response that was presented for its one cycle is gone (R63). -/
def State.nextCycle (s : State) : State :=
  { s with inputs := s.inputs.tail, rsp := none, freeIndex := s.freeIndex + 1 }

/-- A rising edge with `rst` = 0 passes. -/
def State.clocked (s : State) : State := { s.nextCycle with rstEdges := 0 }

/-- A rising edge with `rst` = 1: the registers take their reset values, and a command in flight is abandoned with
no response (70_reset_and_hazards.md R221 to R223). -/
def State.resetEdge (s : State) : State :=
  { s.nextCycle with regs := Registers.reset, inflight := none, rstEdges := s.rstEdges + 1 }

/-- A rising edge while `f` is in flight: one cycle less is left, and in the cycle after the last the response is
presented and `BUSY` = 0 (R63). -/
def State.progress (s : State) (f : InFlight) : State :=
  if f.left ≤ 1 then { s.clocked with inflight := none, rsp := some f.rsp }
  else { s.clocked with inflight := some { f with left := f.left - 1 } }

end Sys2Proof.Machine
end

