-- ==== Sys2Proof/Machine/Advance.lean ====
section
/-! DEFINITION. NEXT32 (40_advance.md). -/

namespace Sys2Proof.Machine

/-- NEXT32 against the registers: one advance, its output zero-extended as the response (R106). -/
def next32Effect (r : Registers) : Response × Registers :=
  (okResponse (drawResponseData r.advance.1), r.advance.2)

/-- NEXT32 (R106). -/
def execNext32 (s : State) : Host.Outcome State Fault Refusal :=
  .next (s.respond (next32Effect s.regs).2 (next32Effect s.regs).1 Config.LAT_NEXT32 none)

end Sys2Proof.Machine
end

