-- ==== Sys2Proof/Machine/SeedState.lean ====
section
/-! DEFINITION. SEED, GETSEED, SETSTATE and GETSTATE (41_seed_state.md). -/

namespace Sys2Proof.Machine

/-! ## The steps of SEED, in the order of R130 -/

/-- `SEED <- data`, `STATE <- 0`, `INC <- (DEFAULT_INC << 1) | 1`. -/
def seedStart (data : Word) : Registers :=
  { state := 0#64, inc := (Config.DEFAULT_INC <<< 1) ||| 1#64, seed := dataOperand data }

/-- The first `advance()`, output discarded. -/
def seedMixIncrement (data : Word) : Registers := (seedStart data).advance.2

/-- `STATE <- STATE + data`, modulo 2^64. -/
def seedAddSeed (data : Word) : Registers :=
  { seedMixIncrement data with state := (seedMixIncrement data).state + dataOperand data }

/-- The second `advance()`, output discarded. -/
def seedMixSeed (data : Word) : Registers := (seedAddSeed data).advance.2

/-- The intermediate values a SEED holds while it executes (10_state.md R30, 41_seed_state.md R131). -/
def seedStages (data : Word) : SeedStages := ⟨(seedMixIncrement data).state, (seedAddSeed data).state⟩

/-- SEED against the registers, none of which it reads (R130, R136). -/
def seedEffect (data : Word) : Response × Registers := (okResponse noResponseData, seedMixSeed data)

/-- SEED (R130). -/
def execSeed (data : Word) (s : State) : Host.Outcome State Fault Refusal :=
  .next (s.respond (seedEffect data).2 (seedEffect data).1 Config.LAT_SEED (some (seedStages data)))

/-! ## State access -/

/-- GETSEED against the registers (R132). -/
def getseedEffect (r : Registers) : Response × Registers := (okResponse (registerResponseData r.seed), r)

/-- GETSEED (R132). -/
def execGetseed (s : State) : Host.Outcome State Fault Refusal :=
  .next (s.respond (getseedEffect s.regs).2 (getseedEffect s.regs).1 Config.LAT_GETSEED none)

/-- SETSTATE against the registers (R133). -/
def setstateEffect (data : Word) (r : Registers) : Response × Registers :=
  (okResponse noResponseData, { r with state := dataOperand data })

/-- SETSTATE (R133). -/
def execSetstate (data : Word) (s : State) : Host.Outcome State Fault Refusal :=
  .next (s.respond (setstateEffect data s.regs).2 (setstateEffect data s.regs).1 Config.LAT_SETSTATE none)

/-- GETSTATE against the registers; it does not advance (R134). -/
def getstateEffect (r : Registers) : Response × Registers := (okResponse (registerResponseData r.state), r)

/-- GETSTATE (R134). -/
def execGetstate (s : State) : Host.Outcome State Fault Refusal :=
  .next (s.respond (getstateEffect s.regs).2 (getstateEffect s.regs).1 Config.LAT_GETSTATE none)

end Sys2Proof.Machine
end

