-- ==== Sys2Proof/Machine/Dispatch.lean ====
section
/-! DEFINITION. One arm per instruction. -/

namespace Sys2Proof.Machine

def exec (i : Instr) (s : State) : Host.Outcome State Fault Refusal :=
  match i with
  | .next32 => Sys2Proof.Machine.execNext32 s
  | .seed data => Sys2Proof.Machine.execSeed data s
  | .getseed => Sys2Proof.Machine.execGetseed s
  | .setstate data => Sys2Proof.Machine.execSetstate data s
  | .getstate => Sys2Proof.Machine.execGetstate s

end Sys2Proof.Machine
end

