-- ==== Sys2Proof/Machine/Step.lean ====
section
/-! DEFINITION. One rising edge of `clk` (30_encoding.md R60 to R63, 70_reset_and_hazards.md R220 to R223). -/

namespace Sys2Proof.Machine

/-- The command `c` is accepted: a legal word runs its instruction, an illegal one takes IllegalCommand (R61,
60_exceptions.md R201). -/
def acceptCommand (c : Command) (s : State) : Host.Outcome State Fault Refusal :=
  match decode c with
  | .ok i => exec i s
  | .error _ => .next s.raiseIllegalCommand

/-- One rising edge of `clk`. -/
def step (s : State) : Host.Outcome State Fault Refusal :=
  match s.event with
  | .reset => .next s.resetEdge
  | .resetTooShort => .fault .resetTooShort
  | .busy f => .next (s.progress f)
  | .command c => acceptCommand c s.clocked
  | .idle => .next s.clocked

/-- `s` with the command whose low `nbits` bits are `w` presented at the pins of the coming edge, and with the port
ready to accept it: no command in flight and reset released. -/
def State.withFetchWord (s : State) (nbits w : Nat) : State :=
  { s with inputs := PortIn.present (commandOfWord nbits w) :: s.inputs.tail, inflight := none, rstEdges := 0 }

end Sys2Proof.Machine
end

