-- ==== Sys2Proof/Machine/Transaction.lean ====
section
/-! DEFINITION. The transaction abstraction of the port (30_encoding.md R64): a command `(op, data)` executed
atomically against the registers, streams of commands (20_memory.md R47), and several requesters (R49). -/

namespace Sys2Proof.Machine

/-- The effect of an instruction on the registers, and its response (R64). -/
def instrEffect (i : Instr) (r : Registers) : Response × Registers :=
  match i with
  | .next32 => next32Effect r
  | .seed data => seedEffect data
  | .getseed => getseedEffect r
  | .setstate data => setstateEffect data r
  | .getstate => getstateEffect r

/-- The latency parameter of an instruction (00_scope.md R10). -/
def instrLatency (i : Instr) : Nat :=
  match i with
  | .next32 => Config.LAT_NEXT32
  | .seed _ => Config.LAT_SEED
  | .getseed => Config.LAT_GETSEED
  | .setstate _ => Config.LAT_SETSTATE
  | .getstate => Config.LAT_GETSTATE

/-- What an instruction holds while it executes: SEED its intermediate values, the others nothing (10_state.md
R30). -/
def instrStages (i : Instr) : Option SeedStages :=
  match i with
  | .next32 => none
  | .seed data => some (seedStages data)
  | .getseed => none
  | .setstate _ => none
  | .getstate => none

/-- One command as a transaction (R64); an illegal one changes nothing (60_exceptions.md R201). -/
def transact (c : Command) (r : Registers) : Response × Registers :=
  match decode c with
  | .ok i => instrEffect i r
  | .error _ => (errorResponse, r)

/-- The latency of a command, legal or not (R10). -/
def commandLatency (c : Command) : Nat :=
  match decode c with
  | .ok i => instrLatency i
  | .error _ => Config.LAT_ILLEGAL

/-- The registers after a stream of commands, in acceptance order (20_memory.md R47). -/
def registersAfter : List Command → Registers → Registers
  | [], r => r
  | c :: cs, r => registersAfter cs (transact c r).2

/-- The responses to a stream of commands, in acceptance order (R47). -/
def responsesTo : List Command → Registers → List Response
  | [], _ => []
  | c :: cs, r => (transact c r).1 :: responsesTo cs (transact c r).2

/-- A command that changes no register: GETSEED, GETSTATE, or an illegal word (R44, R201). -/
def readsOnly (c : Command) : Bool :=
  match decode c with
  | .ok .next32 => false
  | .ok (.seed _) => false
  | .ok .getseed => true
  | .ok (.setstate _) => false
  | .ok .getstate => true
  | .error _ => true

/-! ## Several requesters (R49)

An arbitrated stream is a list of commands, each with the number of its requester. Which stream arises is not
fixed: a model admits every stream whose projections are the requesters' own. -/

/-- The commands of requester `j` in an arbitrated stream. -/
def requesterCommands (j : Nat) (zs : List (Nat × Command)) : List Command :=
  (zs.filter fun z => z.1 == j).map Prod.snd

/-- `zs` is an interleaving of the requesters' command streams. -/
def IsInterleaving (streams : Nat → List Command) (zs : List (Nat × Command)) : Prop :=
  ∀ j, requesterCommands j zs = streams j

/-- The responses that requester `j` gets when the block serves an arbitrated stream. -/
def requesterResponses (j : Nat) : List (Nat × Command) → Registers → List Response
  | [], _ => []
  | (k, c) :: zs, r =>
    if k == j then (transact c r).1 :: requesterResponses j zs (transact c r).2
    else requesterResponses j zs (transact c r).2

end Sys2Proof.Machine
end

