-- ==== Sys2Proof/Machine/Script.lean ====
section
/-! DEFINITION. The command-script syntax of 30_encoding.md R69, in which 95_test_vectors.md writes its programs: lines of
characters, their meaning as commands, and running a script over the transaction abstraction. -/

namespace Sys2Proof.Machine

/-! ## Characters and numbers -/

/-- The value of a hexadecimal digit, in either case. -/
def hexDigitValue (c : Char) : Option Nat :=
  let n := c.toNat
  if 48 ≤ n ∧ n ≤ 57 then some (n - 48)
  else if 65 ≤ n ∧ n ≤ 70 then some (n - 55)
  else if 97 ≤ n ∧ n ≤ 102 then some (n - 87)
  else none

/-- Read digits in a base after a value already read, most significant first. -/
def readDigits (base : Nat) : Nat → List Char → Option Nat
  | acc, [] => some acc
  | acc, c :: cs =>
    match hexDigitValue c with
    | some d => if d < base then readDigits base (acc * base + d) cs else none
    | none => none

/-- An unsigned 64-bit integer in decimal, or in hexadecimal after `0x` (R69). -/
def parseNumber (w : List Char) : Option Nat :=
  let value := match w with
    | '0' :: 'x' :: d :: ds => readDigits 16 0 (d :: ds)
    | d :: ds => readDigits 10 0 (d :: ds)
    | [] => none
  match value with
  | some n => if n < 2 ^ 64 then some n else none
  | none => none

/-- A letter, which begins the name of a result. -/
def isLetter (c : Char) : Bool := (65 ≤ c.toNat && c.toNat ≤ 90) || (97 ≤ c.toNat && c.toNat ≤ 122)

/-- The name of a result: it begins with a letter (log 10). -/
def isName : List Char → Bool
  | [] => false
  | c :: _ => isLetter c

/-! ## Lines -/

/-- Put a character in front of the first word of a line split at its spaces. -/
def consWord (c : Char) : List (List Char) → List (List Char)
  | [] => [[c]]
  | w :: ws => (c :: w) :: ws

/-- A line split at every space; words may be empty. -/
def splitSpaces : List Char → List (List Char)
  | [] => [[]]
  | c :: cs => if c = ' ' then [] :: splitSpaces cs else consWord c (splitSpaces cs)

/-- The words of a line. -/
def wordsOf (line : List Char) : List (List Char) := (splitSpaces line).filter fun w => !w.isEmpty

/-- The spelling of a mnemonic (R67). -/
def mnemonicSpelling : Mnemonic → List Char
  | .next32 => ['N', 'E', 'X', 'T', '3', '2']
  | .seed => ['S', 'E', 'E', 'D']
  | .getseed => ['G', 'E', 'T', 'S', 'E', 'E', 'D']
  | .setstate => ['S', 'E', 'T', 'S', 'T', 'A', 'T', 'E']
  | .getstate => ['G', 'E', 'T', 'S', 'T', 'A', 'T', 'E']

/-- The mnemonic that a word spells. -/
def parseMnemonic (w : List Char) : Option Mnemonic :=
  [Mnemonic.next32, .seed, .getseed, .setstate, .getstate].find? fun m => mnemonicSpelling m == w

/-- An operand: a number, or the name of an earlier result. -/
def parseOperand (w : List Char) : Option ScriptOperand :=
  match parseNumber w with
  | some n => some (.number n)
  | none => if isName w then some (.result w) else none

/-- The command words of a line: a mnemonic and the operand it takes. -/
def parseCommand (result : Option (List Char)) : List (List Char) → Option ScriptLine
  | [m] =>
    match parseMnemonic m with
    | some mn => if mn.takesOperand then none else some (.command result mn none)
    | none => none
  | [m, o] =>
    match parseMnemonic m, parseOperand o with
    | some mn, some op => if mn.takesOperand then some (.command result mn (some op)) else none
    | _, _ => none
  | _ => none

/-- One line of a script (R69); none for a line outside the syntax. -/
def parseLine (line : List Char) : Option ScriptLine :=
  match line with
  | ';' :: text => some (.comment text)
  | _ =>
    match wordsOf line with
    | name :: ['='] :: rest => if isName name then parseCommand (some name) rest else none
    | ws => parseCommand none ws

/-! ## Printing an instruction -/

/-- The digit of a value below 16. -/
def hexDigit (n : Nat) : Char := if n < 10 then Char.ofNat (n + 48) else Char.ofNat (n + 55)

/-- The low `k` hexadecimal digits of a number, most significant first. -/
def hexDigits : Nat → Nat → List Char
  | 0, _ => []
  | k + 1, n => hexDigits k (n / 16) ++ [hexDigit (n % 16)]

/-- A 64-bit operand as the spec's programs write it: `0x` and 16 digits. -/
def printWord (w : Word) : List Char := '0' :: 'x' :: hexDigits 16 w.toNat

/-- The mnemonic of an instruction. -/
def mnemonicOf : Instr → Mnemonic
  | .next32 => .next32
  | .seed _ => .seed
  | .getseed => .getseed
  | .setstate _ => .setstate
  | .getstate => .getstate

/-- The script line of an instruction, with no result name (R69). -/
def printInstr (i : Instr) : List Char :=
  if (mnemonicOf i).takesOperand then mnemonicSpelling (mnemonicOf i) ++ ' ' :: printWord (dataOf i)
  else mnemonicSpelling (mnemonicOf i)

/-! ## Running a script -/

/-- The named results so far, newest first. -/
abbrev Results := List (List Char × Word)

/-- The value of an operand: a name stands for the named response's data. -/
def operandValue (env : Results) : ScriptOperand → Option Word
  | .number n => if n < 2 ^ 64 then some (BitVec.ofNat 64 n) else none
  | .result name => (env.find? fun e => e.1 == name).map Prod.snd

/-- The instruction of a mnemonic and an operand value; a mnemonic takes its operand and no other (R69). -/
def instrOf : Mnemonic → Option Word → Option Instr
  | .next32, none => some .next32
  | .seed, some d => some (.seed d)
  | .getseed, none => some .getseed
  | .setstate, some d => some (.setstate d)
  | .getstate, none => some .getstate
  | .next32, some _ => none
  | .seed, none => none
  | .getseed, some _ => none
  | .setstate, none => none
  | .getstate, some _ => none

/-- The instruction of a line's mnemonic and operand. -/
def lineInstr (env : Results) (m : Mnemonic) : Option ScriptOperand → Option Instr
  | none => instrOf m none
  | some o =>
    match operandValue env o with
    | some d => instrOf m (some d)
    | none => none

/-- Add a named result. -/
def bindResult (result : Option (List Char)) (v : Word) (env : Results) : Results :=
  match result with
  | some name => (name, v) :: env
  | none => env

/-- Run the lines of a script from the registers: the responses in order and the registers left; none where a line
has no meaning. -/
def runScript : List ScriptLine → Results → Registers → Option (List Response × Registers)
  | [], _, r => some ([], r)
  | .comment _ :: ls, env, r => runScript ls env r
  | .command result m o :: ls, env, r =>
    match lineInstr env m o with
    | none => none
    | some i =>
      match runScript ls (bindResult result (transact (encode i) r).1.data env) (transact (encode i) r).2 with
      | none => none
      | some (rsps, r') => some ((transact (encode i) r).1 :: rsps, r')

end Sys2Proof.Machine
end

