-- ==== Sys2Proof/Machine/Float.lean ====
section
/-! DEFINITION. The host's floating point (45_host_sequences.md R157): binary32 and binary64 patterns, computed exactly
and rounded once, to nearest with ties to even; no fused operation. IEEE 754 is PRESUMED by the spec itself
(92_eei_decisions.md D15); see log 8 and log 9. -/

namespace Sys2Proof.Machine

/-- A binary interchange format: bits of significand (the hidden one counted), bits of exponent field, and the
exponent of the least positive value, negated. -/
structure FloatFormat where
  precision : Nat
  exponentBits : Nat
  negMinExp : Nat
  deriving DecidableEq, Repr

/-- binary32. -/
def binary32 : FloatFormat := ⟨24, 8, 149⟩

/-- binary64. -/
def binary64 : FloatFormat := ⟨53, 11, 1074⟩

/-- What a pattern stands for. A finite datum is `(-1)^neg * mant * 2^exp`. -/
inductive FloatDatum where
  | nan
  | infinite (neg : Bool)
  | finite (neg : Bool) (mant : Nat) (exp : Int)
  deriving DecidableEq, Repr

/-- The exponent field of all ones. -/
def FloatFormat.maxField (fmt : FloatFormat) : Nat := 2 ^ fmt.exponentBits - 1

/-- The magnitude pattern of infinity: exponent field all ones, fraction 0. -/
def FloatFormat.infinity (fmt : FloatFormat) : Nat := fmt.maxField * 2 ^ (fmt.precision - 1)

/-- The datum of a pattern: sign above exponent field above fraction. -/
def FloatFormat.unpack (fmt : FloatFormat) (bits : Nat) : FloatDatum :=
  let fraction := bits % 2 ^ (fmt.precision - 1)
  let field := bits / 2 ^ (fmt.precision - 1) % 2 ^ fmt.exponentBits
  let neg := bits / 2 ^ (fmt.precision - 1 + fmt.exponentBits) % 2 == 1
  if field = fmt.maxField then
    if fraction = 0 then .infinite neg else .nan
  else if field = 0 then .finite neg fraction (-(fmt.negMinExp : Int))
  else .finite neg (fraction + 2 ^ (fmt.precision - 1)) ((field : Int) - 1 - fmt.negMinExp)

/-- `m / 2^sh` rounded to the nearest natural number, ties to even. -/
def roundShift (m sh : Nat) : Nat :=
  let q := m / 2 ^ sh
  let twice := 2 * (m % 2 ^ sh)
  if 2 ^ sh < twice then q + 1
  else if twice = 2 ^ sh ∧ 0 < sh then q + q % 2
  else q

/-- The pattern, without sign, of `mant * 2^exp` rounded once to nearest even. A rounded significand that reaches
the next power of two carries into the exponent field, and a value too large gives infinity. -/
def FloatFormat.roundMagnitude (fmt : FloatFormat) (mant : Nat) (exp : Int) : Nat :=
  if mant = 0 then 0
  else
    let lead : Int := exp + (Nat.log2 mant : Int)
    let quantum : Int := max (lead - ((fmt.precision : Int) - 1)) (-(fmt.negMinExp : Int))
    let digits := if exp ≤ quantum then roundShift mant (quantum - exp).toNat else mant * 2 ^ (exp - quantum).toNat
    min ((quantum + fmt.negMinExp).toNat * 2 ^ (fmt.precision - 1) + digits) fmt.infinity

/-- The sign bit of a pattern. -/
def FloatFormat.signBit (fmt : FloatFormat) (neg : Bool) : Nat :=
  if neg then 2 ^ (fmt.precision - 1 + fmt.exponentBits) else 0

/-- The pattern of a datum rounded once; `freeNan` chooses the sign and payload of a NaN, which is quiet. -/
def FloatFormat.pack (fmt : FloatFormat) (freeNan : Nat) : FloatDatum → Nat
  | .nan => freeNan ||| (fmt.infinity + 2 ^ (fmt.precision - 2))
  | .infinite neg => fmt.signBit neg + fmt.infinity
  | .finite neg mant exp => fmt.signBit neg + fmt.roundMagnitude mant exp

/-- The datum with its sign changed. -/
def FloatDatum.negate : FloatDatum → FloatDatum
  | .nan => .nan
  | .infinite neg => .infinite !neg
  | .finite neg mant exp => .finite (!neg) mant exp

/-- A finite datum's mantissa with its sign, as a multiple of `2^low` for a `low` not above its exponent. -/
def signedMantissa (neg : Bool) (mant : Nat) (exp low : Int) : Int :=
  let m : Int := (mant : Int) * 2 ^ (exp - low).toNat
  if neg then -m else m

/-- The exact sum. A zero sum is negative only if both operands are. -/
def FloatDatum.add : FloatDatum → FloatDatum → FloatDatum
  | .nan, _ => .nan
  | .infinite _, .nan => .nan
  | .infinite a, .infinite b => if a = b then .infinite a else .nan
  | .infinite a, .finite _ _ _ => .infinite a
  | .finite _ _ _, .nan => .nan
  | .finite _ _ _, .infinite b => .infinite b
  | .finite a ma ea, .finite b mb eb =>
    let low := min ea eb
    let sum := signedMantissa a ma ea low + signedMantissa b mb eb low
    .finite (if sum = 0 then a && b else decide (sum < 0)) sum.natAbs low

/-- The exact product. Infinity times zero is NaN. -/
def FloatDatum.mul : FloatDatum → FloatDatum → FloatDatum
  | .nan, _ => .nan
  | .infinite _, .nan => .nan
  | .infinite a, .infinite b => .infinite (a ^^ b)
  | .infinite a, .finite b mb _ => if mb = 0 then .nan else .infinite (a ^^ b)
  | .finite _ _ _, .nan => .nan
  | .finite a ma _, .infinite b => if ma = 0 then .nan else .infinite (a ^^ b)
  | .finite a ma ea, .finite b mb eb => .finite (a ^^ b) (ma * mb) (ea + eb)

/-- Strictly less; a NaN is less than nothing and nothing is less than a NaN. -/
def FloatDatum.less : FloatDatum → FloatDatum → Bool
  | .nan, _ => false
  | .infinite _, .nan => false
  | .infinite a, .infinite b => a && !b
  | .infinite a, .finite _ _ _ => a
  | .finite _ _ _, .nan => false
  | .finite _ _ _, .infinite b => !b
  | .finite a ma ea, .finite b mb eb =>
    decide (signedMantissa a ma ea (min ea eb) < signedMantissa b mb eb (min ea eb))

/-- The datum of a binary32 pattern. -/
def datum32 (x : Binary32) : FloatDatum := binary32.unpack x.toNat

/-- The datum of a binary64 pattern. -/
def datum64 (x : Binary64) : FloatDatum := binary64.unpack x.toNat

/-- `round_f32`: the binary32 pattern of a datum, rounded once (R157). -/
def roundF32 (freeNan : Binary32) (d : FloatDatum) : Binary32 := BitVec.ofNat 32 (binary32.pack freeNan.toNat d)

/-- `round_f32(a + b)`. -/
def addF32 (P : Config.HostParams) (a b : Binary32) : Binary32 :=
  roundF32 (P.nan32 [a, b]) ((datum32 a).add (datum32 b))

/-- `round_f32(a - b)`. -/
def subF32 (P : Config.HostParams) (a b : Binary32) : Binary32 :=
  roundF32 (P.nan32 [a, b]) ((datum32 a).add (datum32 b).negate)

/-- `round_f32(a * b)`. -/
def mulF32 (P : Config.HostParams) (a b : Binary32) : Binary32 :=
  roundF32 (P.nan32 [a, b]) ((datum32 a).mul (datum32 b))

/-- The binary64 pattern of a datum, rounded once. -/
def roundF64 (freeNan : Binary64) (d : FloatDatum) : Binary64 := BitVec.ofNat 64 (binary64.pack freeNan.toNat d)

/-- `round_f32(t * u)` for the host's τ literal `t` (R162): exact before its one rounding, or taken in binary64 and
then narrowed, since the spec leaves open which (90_conflicts.md C5). -/
def tauTimes (P : Config.HostParams) (u : Binary32) : Binary32 :=
  let exact := (datum64 P.TAU_F).mul (datum32 u)
  roundF32 (P.nan32 [u]) (if P.tauProductInBinary64 then datum64 (roundF64 (P.nan64 u) exact) else exact)

/-- `a < b` on binary32 values. -/
def lessF32 (a b : Binary32) : Bool := (datum32 a).less (datum32 b)

/-- `widen_64`: exact, since every finite binary32 value is a binary64 value (R157). -/
def widen64 (P : Config.HostParams) (x : Binary32) : Binary64 :=
  BitVec.ofNat 64 (binary64.pack (P.nan64 x).toNat (datum32 x))

/-- The binary32 pattern of -2. -/
def minusTwo : Binary32 := 0xC0000000#32

end Sys2Proof.Machine
end

