-- ==== Sys2Proof/Machine/Sequences.lean ====
section
/-! DEFINITION. The host sequences (45_host_sequences.md): pseudo-instructions that the HOST runs by issuing commands to
the block, here over the transaction abstraction of 30_encoding.md R64. The block never executes them (R150). Other
requesters may share the block, and their commands may fall between those of a sequence (20_memory.md R49). -/

namespace Sys2Proof.Machine

/-- What a host sequence acts on. The stream the block serves is one serial list of commands, each with the number of
its requester: this host is requester 0, the others are numbered from 1 (20_memory.md R49). -/
structure HostState where
  /-- The registers of the block that the sequence drives. -/
  regs : Registers
  /-- What the arbiter outside the block serves other requesters before each coming command of this host, oldest
  first: requester `j + 1` appears as `j`. Nothing listed is no command of another, as under the lock of R50. -/
  others : List (List (Nat × Command))
  /-- The arbitrated stream the block has served so far, oldest first. -/
  served : List (Nat × Command)
  deriving DecidableEq, Repr

/-- The commands this host has issued, oldest first. -/
def HostState.issued (h : HostState) : List Command := requesterCommands 0 h.served

/-- What the block serves other requesters before the next command of this host. -/
def HostState.othersNext (h : HostState) : List (Nat × Command) :=
  (h.others.headD []).map fun z => (z.1 + 1, z.2)

/-- The block serves the other requesters, and this host's command is next (R49). -/
def HostState.arbitrate (h : HostState) : HostState :=
  { regs := registersAfter (h.othersNext.map Prod.snd) h.regs, others := h.others.tail,
    served := h.served ++ h.othersNext }

/-- What one command of this host leaves, the other requesters served before it. -/
def HostState.afterCommand (c : Command) (h : HostState) : HostState :=
  { regs := (transact c h.arbitrate.regs).2, others := h.arbitrate.others, served := h.arbitrate.served ++ [(0, c)] }

/-- How a host sequence ends. -/
inductive SeqEnd (α : Type) where
  | value (a : α)
  | fault (f : Fault)
  | refused (r : Refusal)
  deriving DecidableEq, Repr

/-- A finished host sequence: how it ended, and what it left. -/
structure SeqRun (α : Type) where
  ending : SeqEnd α
  host : HostState
  deriving DecidableEq, Repr

/-- End with a value, issuing nothing. -/
def HostState.done {α : Type} (h : HostState) (a : α) : SeqRun α := ⟨.value a, h⟩

/-- End with a fault, issuing nothing: `host_fault(reason)` (00_scope.md R14). -/
def HostState.fail {α : Type} (h : HostState) (f : Fault) : SeqRun α := ⟨.fault f, h⟩

/-- End refused, issuing nothing. -/
def HostState.refuse {α : Type} (h : HostState) (r : Refusal) : SeqRun α := ⟨.refused r, h⟩

/-- Go on with the value, if there is one. -/
def SeqRun.andThen {α β : Type} (x : SeqRun α) (f : α → HostState → SeqRun β) : SeqRun β :=
  match x.ending with
  | .value a => f a x.host
  | .fault e => x.host.fail e
  | .refused r => x.host.refuse r

/-- `cmd(OP, d)`: issue one command; an error response ends the sequence (R150). The block cannot tell that another
requester came between (20_memory.md R49). -/
def issueCommand (c : Command) (h : HostState) : SeqRun Word :=
  ⟨if (transact c h.arbitrate.regs).1.err then .fault .blockError else .value (transact c h.arbitrate.regs).1.data,
    h.afterCommand c⟩

/-- One draw: `u32(cmd(NEXT32, 0))` (R150). -/
def draw (h : HostState) : SeqRun Draw := (issueCommand (encode .next32) h).andThen fun d h => h.done (u32 d)

/-- ADVANCE: a NEXT32 with its response discarded (30_encoding.md R70). -/
def seqAdvance (h : HostState) : SeqRun Unit := (draw h).andThen fun _ h => h.done ()

/-! ## Integers -/

/-- `(-b) mod b` in 32-bit arithmetic (R151). -/
def boundThreshold (b : BitVec 32) : BitVec 32 := (-b) % b

/-- The rejection loop of BOUNDED, under fuel (R151, R152). -/
def rejectionLoop : Nat → BitVec 32 → HostState → SeqRun (BitVec 32)
  | 0, _, h => h.refuse .outOfFuel
  | fuel + 1, b, h =>
    (draw h).andThen fun r h => if boundThreshold b ≤ r then h.done (r % b) else rejectionLoop fuel b h

/-- BOUNDED b; the bound 0 is a fault before any command is issued (R151, R153). -/
def seqBounded (fuel : Nat) (b : BitVec 32) (h : HostState) : SeqRun (BitVec 32) :=
  if b = 0#32 then h.fail .boundZero else rejectionLoop fuel b h

/-- `d = |f - t|`, exact (R155, R156). -/
def rangeDistance (f t : BitVec 32) : Nat := (f.toInt - t.toInt).natAbs

/-- `span = (d + 1) mod 2^32` (R155). -/
def rangeSpan (f t : BitVec 32) : BitVec 32 := BitVec.ofNat 32 (rangeDistance f t + 1)

/-- RANGED f, t (R155, R156). -/
def seqRanged (fuel : Nat) (f t : BitVec 32) (h : HostState) : SeqRun (BitVec 32) :=
  if f = t then h.done f
  else if rangeSpan f t = 0#32 then h.fail .rangeFull
  else (seqBounded fuel (rangeSpan f t) h).andThen fun v h =>
    h.done (BitVec.ofInt 32 (min f.toInt t.toInt + v.toNat))

/-! ## Floating point -/

/-- `clz32(x)`: the number of leading zero bits, undefined at 0 (00_scope.md R13). -/
def clz32 (x : BitVec 32) : Option Nat := if x = 0#32 then none else some (31 - Nat.log2 x.toNat)

/-- `round_f32(m * 2^shift)` for a draw `m` (R158). -/
def scaleDraw (m : BitVec 32) (shift : Int) : Binary32 := roundF32 0#32 (.finite false m.toNat shift)

/-- The mantissa draw with its top and bottom bits forced (R158). -/
def mantissaOf (r : Draw) : BitVec 32 := r ||| 0x80000001#32

/-- NEXTF32: one or two draws (R158). -/
def seqNextF32 (h : HostState) : SeqRun Binary32 :=
  (draw h).andThen fun e h =>
    if e = 0#32 then h.done 0#32
    else match clz32 e with
      | none => h.refuse .leadingZerosOfZero
      | some z => (draw h).andThen fun r h => h.done (scaleDraw (mantissaOf r) (-32 - (z : Int)))

/-- NEXTF64: NEXTF32 widened exactly (R160). -/
def seqNextF64 (P : Config.HostParams) (h : HostState) : SeqRun Binary64 :=
  (seqNextF32 h).andThen fun u h => h.done (widen64 P u)

/-- FRANGE f, t (R161). -/
def seqFrange (P : Config.HostParams) (f t : Binary32) (h : HostState) : SeqRun Binary64 :=
  (seqNextF32 h).andThen fun u h => h.done (widen64 P (addF32 P (mulF32 P u (subF32 P t f)) f))

/-- The first uniform of NORMAL, moved away from zero (R162). -/
def clampUniform (P : Config.HostParams) (u : Binary32) : Binary32 :=
  if lessF32 u P.EPS_F then addF32 P u P.EPS_F else u

/-- The Box–Muller expression of NORMAL, grouped as R162 writes it. -/
def boxMuller (P : Config.HostParams) (m d u1 u2 : Binary32) : Binary32 :=
  addF32 P m (mulF32 P (mulF32 P d (P.HOST_COS (tauTimes P u2)))
    (P.HOST_SQRT (mulF32 P minusTwo (P.HOST_LOG (clampUniform P u1)))))

/-- NORMAL m, d: two to four draws (R162). -/
def seqNormal (P : Config.HostParams) (m d : Binary32) (h : HostState) : SeqRun Binary64 :=
  (seqNextF32 h).andThen fun u1 h => (seqNextF32 h).andThen fun u2 h => h.done (widen64 P (boxMuller P m d u1 u2))

/-! ## Reseeding from time -/

/-- RANDOMIZE, with `t` the value read from `HOST_TIME` (R164). -/
def seqRandomize (t : Word) (h : HostState) : SeqRun Unit :=
  (issueCommand (encode .getstate) h).andThen fun s h =>
    (issueCommand (encode (.seed (t * s + Config.DEFAULT_INC))) h).andThen fun _ h => h.done ()

/-! ## All of them -/

/-- What a pseudo-instruction returns to the host's program. -/
inductive HostValue where
  | none
  | int32 (v : BitVec 32)
  | float32 (v : Binary32)
  | float64 (v : Binary64)
  deriving DecidableEq, Repr

/-- Run a pseudo-instruction (30_encoding.md R70); `fuel` bounds the draws of a rejection loop. -/
def runPseudo (P : Config.HostParams) (fuel : Nat) (p : Pseudo) (h : HostState) : SeqRun HostValue :=
  match p with
  | .advance => (seqAdvance h).andThen fun _ h => h.done .none
  | .bounded b => (seqBounded fuel b h).andThen fun v h => h.done (.int32 v)
  | .ranged f t => (seqRanged fuel f t h).andThen fun v h => h.done (.int32 v)
  | .nextf32 => (seqNextF32 h).andThen fun v h => h.done (.float32 v)
  | .nextf64 => (seqNextF64 P h).andThen fun v h => h.done (.float64 v)
  | .frange f t => (seqFrange P f t h).andThen fun v h => h.done (.float64 v)
  | .normal m d => (seqNormal P m d h).andThen fun v h => h.done (.float64 v)
  | .randomize t => (seqRandomize t h).andThen fun _ h => h.done .none

end Sys2Proof.Machine
end

