-- ==== Sys2Proof/Machine/Trace.lean ====
section
/-! DEFINITION. What an observer of the port sees over a run: the commands accepted, the responses presented, a host
that drives commands and waits for each response, and several instances of the block. -/

namespace Sys2Proof.Machine

/-- What a host puts on the pins to issue `c` and wait for its response: the command for one edge, then idle pins
for as many edges as its latency (30_encoding.md R61, R63). -/
def drive (c : Command) : List PortIn := PortIn.present c :: List.replicate (commandLatency c) PortIn.idle

/-- What a host puts on the pins to issue the commands one after another. -/
def driveAll (cs : List Command) : List PortIn := cs.flatMap drive

/-- The next `n` rising edges; the run ends where a step does not answer a next state. -/
def runEdges : Nat → State → Host.Outcome State Fault Refusal
  | 0, s => .next s
  | n + 1, s =>
    match step s with
    | .next t => runEdges n t
    | .fault f => .fault f
    | .refused r => .refused r

/-- The responses presented on the port in the cycles after each of the next `n` edges (R63). -/
def responsesSeen : Nat → State → List Response
  | 0, _ => []
  | n + 1, s =>
    match step s with
    | .next t => t.presented.toList ++ responsesSeen n t
    | .fault _ => []
    | .refused _ => []

/-- What a run has done since its last reset: the registers it started from, and the commands accepted since,
oldest first (20_memory.md R47). -/
structure ServiceRecord where
  base : Registers
  accepted : List Command
  deriving DecidableEq, Repr

/-- The record after the coming edge: a reset starts a new one, an accepted command is added. -/
def ServiceRecord.next (h : ServiceRecord) (s : State) : ServiceRecord :=
  match s.event with
  | .reset => ⟨Registers.reset, []⟩
  | .resetTooShort => h
  | .busy _ => h
  | .command c => ⟨h.base, h.accepted ++ [c]⟩
  | .idle => h

/-- The record after the next `n` edges. -/
def serviceRecord : Nat → ServiceRecord → State → ServiceRecord
  | 0, h, _ => h
  | n + 1, h, s =>
    match step s with
    | .next t => serviceRecord n (h.next s) t
    | .fault _ => h
    | .refused _ => h

/-! ## Several instances (60_exceptions.md R211) -/

/-- One edge of the clock of instance `k` of a system of blocks; the system stays as it is where that instance
stops or does not exist. The instances share no field; that those at equal `freeIndex` show equal values on an idle
response bus is the model's choice (log 5). -/
def stepInstance (k : Nat) (sys : List State) : List State :=
  match sys[k]? with
  | none => sys
  | some s =>
    match step s with
    | .next t => sys.set k t
    | .fault _ => sys
    | .refused _ => sys

end Sys2Proof.Machine
end

