-- ==== Sys2Proof/Safety.lean ====
section
/-! DEFINITION. What a safe run is: no illegal command is accepted (60_exceptions.md R201 makes IllegalCommand a
fault of the run that issued it) and no reset is cut short (70_reset_and_hazards.md R220). -/

namespace Sys2Proof.Safety

open Sys2Proof.Machine

/-- The fault that the coming edge charges to the run, if any. -/
def edgeFault (s : State) : Option Fault :=
  match s.event with
  | .reset => none
  | .resetTooShort => some .resetTooShort
  | .busy _ => none
  | .command c =>
    match decode c with
    | .ok _ => none
    | .error (.illegalCommand op) => some (.illegalCommand op)
  | .idle => none

/-- The step that treats IllegalCommand as a fault of the run (R201, last sentence): the machine's own step where
the edge charges no fault. -/
def checkedStep (s : State) : Host.Outcome State Fault Refusal :=
  match edgeFault s with
  | some f => .fault f
  | none => step s

/-- The next `n` edges charge no fault to the run. -/
def safeFor : Nat → State → Bool
  | 0, _ => true
  | n + 1, s =>
    match checkedStep s with
    | .next t => safeFor n t
    | .fault _ => false
    | .refused _ => false

/-- What holds at every rising edge of a run from reset: `INC` holds `INC_SEEDED` (10_state.md R23); a response is
presented only while nothing is in flight, an error response carries no data (30_encoding.md R63, R66); a command
in flight still has a cycle to go and a SEED in flight holds the value of its first stage (41_seed_state.md R131);
and while reset is held the block is as reset leaves it (70_reset_and_hazards.md R221). -/
structure Inv (s : State) : Prop where
  inc_seeded : s.regs.inc = Config.INC_SEEDED
  response_only_when_idle : s.rsp.isSome = true → s.busy = false
  presented_error_is_empty : ∀ r, s.rsp = some r → r.err = true → r = errorResponse
  inflight_error_is_empty : ∀ f, s.inflight = some f → f.rsp.err = true → f.rsp = errorResponse
  inflight_has_cycles : ∀ f, s.inflight = some f → 1 ≤ f.left
  seed_first_stage : ∀ f g, s.inflight = some f → f.stages = some g → g.afterFirstAdvance = Config.INC_SEEDED
  held_in_reset : 0 < s.rstEdges → s.regs = Registers.reset ∧ s.inflight = none ∧ s.rsp = none

end Sys2Proof.Safety
end

