-- ==== Sys2Proof/Certificates/Slice0/Obligations.lean ====
section
/-! DEFINITION. What is to be proved of the model: statements of the spec's numbered rules. -/

namespace Sys2Proof.Claims

open Sys2Proof.Machine

/-- At the coming edge the pins present `c`, and the port accepts it (30_encoding.md R61): `rst` = 0, `cmd_valid` = 1,
`BUSY` = 0, and reset was not released too soon. -/
def Accepts (s : State) (c : Command) : Prop :=
  s.pinsIn.rst = false ∧ s.pinsIn.cmdValid = true ∧ s.pinsIn.cmdOp = c.op ∧ s.pinsIn.cmdData = c.data ∧
    s.busy = false ∧ s.resetCutShort = false

/-- The sample of the pins at the `k`-th coming edge, counted from 0: idle where nothing is listed. -/
def sample (s : State) (k : Nat) : PortIn := s.inputs.getD k PortIn.idle

/-- The state with a command in flight, field by field: `regs`, and the response that comes after `latency` cycles.
That the register writes stand from the accepting edge on is the model's choice inside an interval in which nothing
can see them (log 3). -/
def inFlightState (s : State) (regs : Registers) (rsp : Response) (latency : Nat) (stages : Option SeedStages) :
    State :=
  { regs := regs, inflight := some ⟨rsp, latency, stages⟩, rsp := s.rsp, rstEdges := s.rstEdges,
    inputs := s.inputs, freeIndex := s.freeIndex }

/-- The command word of NEXT32 as the host issues it. -/
def next32Command : Command := ⟨0x01#8, 0#64⟩

/-- `k` draws of the host. -/
def draws (k : Nat) : List Command := List.replicate k next32Command

/-- The host after `k` draws of its own, whatever the arbiter serves other requesters in between. -/
def afterDraws : Nat → HostState → HostState
  | 0, h => h
  | k + 1, h => afterDraws k (h.afterCommand next32Command)

/-- The draw that the host's own `k`-th NEXT32 from here gives, counted from 0: other requesters served before it. -/
def drawSeen (k : Nat) (h : HostState) : Draw := advanceOutput (afterDraws k h).arbitrate.regs.state

/-- Two data stand for one value: the same sign, and equal magnitudes as multiples of the lower power of two. -/
def SameValue : FloatDatum → FloatDatum → Prop
  | .nan, .nan => True
  | .infinite a, .infinite b => a = b
  | .finite a m e, .finite b n f => a = b ∧ m * 2 ^ (e - min e f).toNat = n * 2 ^ (f - min e f).toNat
  | _, _ => False

/-- A binary32 pattern that is no NaN. -/
def NotNaN (x : Binary32) : Prop := datum32 x ≠ .nan

/-- A binary32 pattern of a finite value. -/
def Finite32 (x : Binary32) : Prop := ∃ neg mant exp, datum32 x = .finite neg mant exp

/-- The two binary32 zeros. -/
def IsZero32 (x : Binary32) : Prop := x = 0x00000000#32 ∨ x = 0x80000000#32

end Sys2Proof.Claims

open Sys2Proof Sys2Proof.Machine Sys2Proof.Claims

/-! ## Encoding -/

/-- 30_encoding.md R67, word by word, for every data operand. -/
def Obligations.OpcodeMapWords : Prop :=
  ∀ d : Word,
    decode ⟨0x01#8, d⟩ = .ok .next32 ∧ decode ⟨0x02#8, d⟩ = .ok (.seed d) ∧ decode ⟨0x03#8, d⟩ = .ok .getseed ∧
    decode ⟨0x04#8, d⟩ = .ok (.setstate d) ∧ decode ⟨0x05#8, d⟩ = .ok .getstate ∧
    decode ⟨0x00#8, d⟩ = .error (.illegalCommand 0x00#8) ∧ decode ⟨0x06#8, d⟩ = .error (.illegalCommand 0x06#8) ∧
    decode ⟨0x07#8, d⟩ = .error (.illegalCommand 0x07#8)

/-- R68: a word is illegal exactly when `rsv` ≠ 0 or `opc` is one of three values, whatever the data; 5 of the 256
words are legal; an illegal word that is accepted changes no register and its response is the error response. The last clause gives the
whole next state, which is the model's: the plain step answers at an illegal word (log 1), and `clocked` moves the
model's own counters (log 4, log 5). -/
def Obligations.IllegalWordsAreTheOther251 : Prop :=
  (∀ c : Command, (∃ e, decode c = .error e) ↔
    (c.op >>> 3 ≠ 0#8 ∨ c.op &&& 7#8 = 0#8 ∨ c.op &&& 7#8 = 6#8 ∨ c.op &&& 7#8 = 7#8)) ∧
  (∀ d : Word, ((List.range 256).filter fun n => (decode ⟨BitVec.ofNat 8 n, d⟩).isOk) = [1, 2, 3, 4, 5]) ∧
  (∀ c : Command, c.legal = true ↔ ∃ i, decode c = .ok i) ∧
  (∀ (c : Command) (s : State), (∃ e, decode c = .error e) → Accepts s c →
    step s = .next (inFlightState s.clocked s.regs ⟨0#64, true⟩ Config.LAT_ILLEGAL none))

/-- Decode and encode agree: an instruction's command, written as one 72-bit number, decodes to it; and a command
that decodes to an instruction has the instruction's command word, and its data where the instruction has any. -/
def Obligations.DecodeEncodeAgree : Prop :=
  (∀ i : Instr, i.wellFormed = true →
    decode (encode i) = .ok i ∧
    decodeTableWord 72 ((encode i).op.toNat + 2 ^ 8 * (encode i).data.toNat) = some i) ∧
  (∀ (c : Command) (i : Instr), decode c = .ok i →
    i.wellFormed = true ∧ c.op = (encode i).op ∧
    ((∃ d, i = .seed d ∨ i = .setstate d) → c = encode i))

/-- The step runs what the decoder reads: an accepted command that decodes to `i` makes the step `exec i` at the
state in which the edge has passed: pins sampled, the old response gone, the model's own counters moved (log 4,
log 5). -/
def Obligations.StepRunsDecodedInstruction : Prop :=
  ∀ (s : State) (c : Command) (i : Instr), Accepts s c → decode c = .ok i →
    step s = exec i { s with inputs := s.inputs.tail, rsp := none, freeIndex := s.freeIndex + 1, rstEdges := 0 }

/-- An instruction put at the pins as a word, with its data, is what the very next step runs (log 6). -/
def Obligations.FetchedWordRunsItsInstruction : Prop :=
  ∀ (s : State) (i : Instr), i.wellFormed = true →
    step (s.withFetchWord 72 ((encode i).op.toNat + 2 ^ 8 * (encode i).data.toNat)) =
      exec i { s with inflight := none, inputs := s.inputs.tail, rsp := none, freeIndex := s.freeIndex + 1, rstEdges := 0 }

/-- 30_encoding.md R69, with the reading of log 10: the script line of an instruction parses back to it. -/
def Obligations.ScriptLineRoundTrip : Prop :=
  ∀ i : Instr, ∃ o, parseLine (printInstr i) = some (.command none (mnemonicOf i) o) ∧
    (ScriptLine.command none (mnemonicOf i) o).wellFormed = true ∧ lineInstr [] (mnemonicOf i) o = some i

/-- R69, with the reading of log 10: a script of instruction lines issues their commands, in order. -/
def Obligations.ScriptRunsAsItsCommands : Prop :=
  ∀ (is : List Instr) (r : Registers),
    (is.mapM fun i => parseLine (printInstr i)).bind (fun ls => runScript ls [] r) =
      some (responsesTo (is.map encode) r, registersAfter (is.map encode) r)

/-! ## The datapath -/

/-- 40_advance.md R101: exact product and sum modulo 2^64, bit 0 of the addend forced to 1. -/
def Obligations.LcgStepIsExactModulo : Prop :=
  (∀ old inc : Word, (lcgNext old inc).toNat =
    (old.toNat * 6364136223846793005 + (inc ||| 1#64).toNat) % 2 ^ 64) ∧
  (∀ inc : Word, (inc ||| 1#64).getLsbD 0 = true ∧
    (∀ i, 1 ≤ i → (inc ||| 1#64).getLsbD i = inc.getLsbD i) ∧ (inc.getLsbD 0 = true → inc ||| 1#64 = inc)) ∧
  Config.MULT = 0x5851F42D4C957F2D#64

/-- R102 and R107: bits 58 to 27 of `(old >> 18) ^ old`, bit by bit; the bits below 27 do not reach the output. -/
def Obligations.MixerBitByBit : Prop :=
  (∀ old : Word, xshMix old = (((old >>> 18) ^^^ old) >>> 27).setWidth 32 ∧
    xshMix old = ((old >>> 18) ^^^ old).extractLsb' 27 32) ∧
  (∀ (old : Word) (i : Nat), i ≤ 18 → (xshMix old).getLsbD i = (old.getLsbD (i + 27) ^^ old.getLsbD (i + 45))) ∧
  (∀ (old : Word) (i : Nat), 19 ≤ i → i ≤ 31 → (xshMix old).getLsbD i = old.getLsbD (i + 27)) ∧
  (∀ a b : Word, a >>> 27 = b >>> 27 → advanceOutput a = advanceOutput b)

/-- R103 and R104: the amount is the top five bits; the shifter is a rotation, bit by bit, and the identity for 0. -/
def Obligations.BarrelShifterRotates : Prop :=
  (∀ old : Word, (rotAmount old).toNat = (old >>> 59).toNat ∧ (rotAmount old).toNat ≤ 31) ∧
  (∀ (x : Draw) (r : BitVec 5), rotr32 x r = (x >>> r.toNat) ||| (x <<< ((32 - r.toNat) % 32))) ∧
  (∀ (x : Draw) (r : BitVec 5) (i : Nat), i ≤ 31 → (rotr32 x r).getLsbD i = x.getLsbD ((i + r.toNat) % 32)) ∧
  (∀ x : Draw, rotr32 x 0#5 = x)

/-- R108: the output depends on the old state alone and `INC` only moves the next state; where the output must be
0; a stream of draws is a function of `STATE` and `INC`. -/
def Obligations.OutputDependsOnOldStateAlone : Prop :=
  (∀ r q : Registers, r.state = q.state → (next32Effect r).1 = (next32Effect q).1) ∧
  (∀ old : Word, old.extractLsb' 27 32 = 0#32 → old.extractLsb' 45 19 = 0#19 → advanceOutput old = 0#32) ∧
  advanceOutput 0#64 = 0#32 ∧
  (∀ (r q : Registers) (n : Nat), r.state = q.state → r.inc = q.inc →
    responsesTo (draws n) r = responsesTo (draws n) q)

/-- No two states have the same successor under one increment: a draw loses nothing of `STATE`. -/
def Obligations.LcgStepIsInjective : Prop :=
  ∀ inc a b : Word, lcgNext a inc = lcgNext b inc → a = b

/-- 40_advance.md R109 (general knowledge there, not in its source): the state sequence has period 2^64. -/
def Obligations.LcgStepHasFullPeriod : Prop :=
  ∀ (inc x : Word) (n : Nat), (fun s => lcgNext s inc)^[n] x = x ↔ 2 ^ 64 ∣ n

/-! ## The instructions: result, completion, frame -/

/-- 40_advance.md R106: the encoding, the result and everything NEXT32 leaves alone, its corner cases and its worked
example. That `STATE` is already written in the busy state is the model's choice (log 3). -/
def Obligations.Next32Result : Prop :=
  (∀ d : Word, decode ⟨0x01#8, d⟩ = .ok .next32) ∧
  (∀ s : State, exec .next32 s = .next (inFlightState s
    { s.regs with state := s.regs.state * 0x5851F42D4C957F2D#64 + (s.regs.inc ||| 1#64) }
    ⟨(((((s.regs.state >>> 18) ^^^ s.regs.state) >>> 27).setWidth 32).rotateRight
      (s.regs.state >>> 59).toNat).setWidth 64, false⟩ Config.LAT_NEXT32 none)) ∧
  (∀ r : Registers, r.state = 0#64 → (next32Effect r).1 = ⟨0#64, false⟩ ∧
    (r.inc.getLsbD 0 = true → (next32Effect r).2 = { r with state := r.inc }) ∧
    (r.inc = Registers.reset.inc → (next32Effect r).2.state = 0x280AF6FDEECF029F#64)) ∧
  (∀ r : Registers, r.state.extractLsb' 59 5 = 0#5 →
    (next32Effect r).1.data = ((((r.state >>> 18) ^^^ r.state) >>> 27).setWidth 32).setWidth 64) ∧
  (∀ r : Registers, r.state.extractLsb' 59 5 = 31#5 →
    (next32Effect r).1.data =
      (((((r.state >>> 18) ^^^ r.state) >>> 27).setWidth 32).rotateLeft 1).setWidth 64) ∧
  (∀ r : Registers, r.state = 0xFFFFFFFFFFFFFFFF#64 → xshMix r.state = 0xFFF80000#32 ∧
    rotAmount r.state = 31#5 ∧ (next32Effect r).1 = ⟨0xFFF00001#64, false⟩) ∧
  next32Effect Registers.reset = (⟨0xBC69701D#64, false⟩, { Registers.reset with state := 0x7A4AC4EE9068A09C#64 })

/-- 41_seed_state.md R130 and R131: the encoding, the result with its intermediate values, everything SEED
leaves alone, the closed form, atomicity (no command is accepted while the SEED is in flight), where the addition
wraps, and the worked values. That the registers, with the intermediate values beside them, are already written in the
busy state is the model's choice (log 3). -/
def Obligations.SeedResult : Prop :=
  (∀ d : Word, decode ⟨0x02#8, d⟩ = .ok (.seed d)) ∧
  (∀ (d : Word) (s : State), exec (.seed d) s = .next (inFlightState s
    ⟨(0x280AF6FDEECF029F#64 + d) * 0x5851F42D4C957F2D#64 + 0x280AF6FDEECF029F#64, 0x280AF6FDEECF029F#64, d⟩
    ⟨0#64, false⟩ Config.LAT_SEED (some ⟨0x280AF6FDEECF029F#64, 0x280AF6FDEECF029F#64 + d⟩))) ∧
  (∀ (d : Word) (s t : State), exec (.seed d) s = .next t → t.cmdReady = false ∧ ∀ c, t.event ≠ .command c) ∧
  (∀ d : Word, (seedAddSeed d).state < d ↔ 2 ^ 64 - 1 - 0x280AF6FDEECF029F < d.toNat) ∧
  (Config.DEFAULT_INC <<< 1) ||| 1#64 = 0x280AF6FDEECF029F#64 ∧
  (seedMixSeed 0xA7323897838D73DB#64).state = 0xA81D966E14D85C11#64 ∧
  (seedAddSeed 0xA7323897838D73DB#64).state = 0xCF3D2F95725C767A#64 ∧
  (seedMixSeed 12345#64).state = 0x946BACC26B2C1A97#64 ∧ (seedAddSeed 12345#64).state = 0x280AF6FDEECF32D8#64 ∧
  (seedMixSeed 0#64).state = 0x8C63D050560A5992#64 ∧ (seedAddSeed 0#64).state = 0x280AF6FDEECF029F#64 ∧
  (seedMixSeed 1#64).state = 0xE4B5C47DA29FD8BF#64 ∧ (seedAddSeed 1#64).state = 0x280AF6FDEECF02A0#64 ∧
  (seedMixSeed 0xFFFFFFFFFFFFFFFF#64).state = 0x3411DC230974DA65#64 ∧
  (seedAddSeed 0xFFFFFFFFFFFFFFFF#64).state = 0x280AF6FDEECF029E#64

/-- R132, whole: the encoding, the result and frame, the values after reset and after SETSTATE, and the worked
example after any number of NEXT32 and SETSTATE. -/
def Obligations.GetseedResult : Prop :=
  (∀ d : Word, decode ⟨0x03#8, d⟩ = .ok .getseed) ∧
  (∀ s : State, exec .getseed s = .next (inFlightState s s.regs ⟨s.regs.seed, false⟩ Config.LAT_GETSEED none)) ∧
  (getseedEffect Registers.reset).1 = ⟨0xA7323897838D73DB#64, false⟩ ∧
  (∀ (d : Word) (r : Registers) (cs : List Command),
    (∀ c ∈ cs, decode c = .ok .next32 ∨ ∃ v, decode c = .ok (.setstate v)) →
    (getseedEffect (registersAfter cs (seedEffect d).2)).1 = ⟨d, false⟩ ∧
    (getseedEffect (setstateEffect d r).2).1 = ⟨r.seed, false⟩)

/-- R133: the encoding, the result and frame, the corner case and the worked example. That `STATE` is already written
in the busy state is the model's choice (log 3). -/
def Obligations.SetstateResult : Prop :=
  (∀ d : Word, decode ⟨0x04#8, d⟩ = .ok (.setstate d)) ∧
  (∀ (d : Word) (s : State), exec (.setstate d) s =
    .next (inFlightState s { s.regs with state := d } ⟨0#64, false⟩ Config.LAT_SETSTATE none)) ∧
  (∀ r : Registers, (next32Effect (setstateEffect 0#64 r).2).1 = ⟨0#64, false⟩) ∧
  (∀ r : Registers, (next32Effect (setstateEffect 0x0123456789ABCDEF#64 r).2).1 = ⟨0x2468A5EB#64, false⟩ ∧
    rotAmount 0x0123456789ABCDEF#64 = 0#5 ∧
    (r.inc = 0x280AF6FDEECF029F#64 →
      (next32Effect (setstateEffect 0x0123456789ABCDEF#64 r).2).2.state = 0x40E8A8A22D46C6A2#64))

/-- R134, whole: the encoding, the result and frame, the value after reset and after `SEED 12345`. -/
def Obligations.GetstateResult : Prop :=
  (∀ d : Word, decode ⟨0x05#8, d⟩ = .ok .getstate) ∧
  (∀ s : State, exec .getstate s = .next (inFlightState s s.regs ⟨s.regs.state, false⟩ Config.LAT_GETSTATE none)) ∧
  (getstateEffect Registers.reset).1 = ⟨0xA81D966E14D85C11#64, false⟩ ∧
  (getstateEffect (seedEffect 12345#64).2).1 = ⟨0x946BACC26B2C1A97#64, false⟩

/-- 20_memory.md R44: which commands may be repeated, and that every draw moves `STATE`. -/
def Obligations.IdempotencyOfCommands : Prop :=
  (∀ r : Registers, (getstateEffect r).2 = r ∧ (getseedEffect r).2 = r ∧
    (getstateEffect (getstateEffect r).2).1 = (getstateEffect r).1 ∧
    (getseedEffect (getseedEffect r).2).1 = (getseedEffect r).1) ∧
  (∀ (d : Word) (r : Registers), (setstateEffect d (setstateEffect d r).2).2 = (setstateEffect d r).2) ∧
  (∀ (d : Word) (r : Registers), (instrEffect (.seed d) (instrEffect (.seed d) r).2).2 = (instrEffect (.seed d) r).2) ∧
  (∀ r : Registers, (next32Effect r).2.state ≠ r.state) ∧
  (∀ r q : Registers, r.state = q.state → r.inc = q.inc →
    (next32Effect r).1 = (next32Effect q).1 ∧ (next32Effect r).2.state = (next32Effect q).2.state)

/-- 41_seed_state.md R136: what a SEED leaves is a function of its data, whatever came before. The clause on `exec`
compares the registers of busy states, which is the model's choice (log 3); the one on streams does not. -/
def Obligations.SeedIgnoresEarlierState : Prop :=
  ∀ (d : Word) (s t : State) (cs ds : List Command), ∃ u v, exec (.seed d) s = .next u ∧ exec (.seed d) t = .next v ∧
    u.regs = v.regs ∧ u.inflight = v.inflight ∧
    registersAfter (cs ++ [encode (.seed d)]) s.regs = registersAfter (ds ++ [encode (.seed d)]) t.regs

/-- 41_seed_state.md R135: SETSTATE then GETSTATE returns the value; a checkpoint restored after any commands
repeats the draws, and `INC` is then unchanged if it held `INC_SEEDED`. -/
def Obligations.CheckpointRestoreRepeatsDraws : Prop :=
  (∀ (x : Word) (r : Registers), (getstateEffect (setstateEffect x r).2).1 = ⟨x, false⟩) ∧
  (∀ (r : Registers) (cs : List Command) (n : Nat), (registersAfter cs r).inc = r.inc →
    responsesTo (draws n) (setstateEffect (getstateEffect r).1.data (registersAfter cs r)).2 =
      responsesTo (draws n) (getstateEffect r).2) ∧
  (∀ (r : Registers) (cs : List Command), r.inc = Config.INC_SEEDED → (registersAfter cs r).inc = r.inc)

/-- 10_state.md R24: no command but GETSEED lets `SEED` be seen, and it moves nothing else. -/
def Obligations.SeedRegisterIsOnlyRetrieved : Prop :=
  ∀ (cs : List Command) (r q : Registers), (∀ c ∈ cs, decode c ≠ .ok .getseed) →
    r.state = q.state → r.inc = q.inc →
    responsesTo cs r = responsesTo cs q ∧ (registersAfter cs r).state = (registersAfter cs q).state ∧
      (registersAfter cs r).inc = (registersAfter cs q).inc

/-- Which steps write which register: outside reset, `STATE` changes only by NEXT32, SEED or SETSTATE, `INC` and `SEED`
only by SEED, and `INC` only to `INC_SEEDED` (10_state.md R21, R22, R24). That the change is at the edge which accepts
the command, and at no later one, is the model's choice (log 3). -/
def Obligations.OnlyNamedCommandsWriteRegisters : Prop :=
  ∀ s t : State, step s = .next t → s.pinsIn.rst = false →
    (t.regs.state ≠ s.regs.state → ∃ c, Accepts s c ∧
      (decode c = .ok .next32 ∨ (∃ d, decode c = .ok (.seed d)) ∨ ∃ d, decode c = .ok (.setstate d))) ∧
    (t.regs.inc ≠ s.regs.inc → ∃ c d, Accepts s c ∧ decode c = .ok (.seed d) ∧ t.regs.inc = Config.INC_SEEDED) ∧
    (t.regs.seed ≠ s.regs.seed → ∃ c d, Accepts s c ∧ decode c = .ok (.seed d) ∧ t.regs.seed = d)

/-- The frame of every instruction: what none of them changes, and which registers each of them may change. -/
def Obligations.InstructionFrames : Prop :=
  ∀ (i : Instr) (s t : State), exec i s = .next t →
    t.rsp = s.rsp ∧ t.rstEdges = s.rstEdges ∧ t.inputs = s.inputs ∧ t.freeIndex = s.freeIndex ∧ t.busy = true ∧
    ((∀ d, i ≠ .seed d) → t.regs.inc = s.regs.inc ∧ t.regs.seed = s.regs.seed) ∧
    (i = .getseed ∨ i = .getstate → t.regs = s.regs)

/-! ## The error response -/

/-- 60_exceptions.md R201 and R203: every illegal word, whatever its data and however many of its fields are wrong,
gets the one response (0, 1), presented after its latency with `BUSY` cleared, with no register written and nothing
recorded. The model's choices in it: the plain step answers and the checked step makes it a fault of the run (log 1);
the response is presented `LAT_ILLEGAL + 1` edges after the cycle of the command (log 2); `freeIndex` and `rstEdges` are
the model's own counters (log 4, log 5). -/
def Obligations.IllegalCommandResponse : Prop :=
  ∀ (s : State) (c : Command), Accepts s c →
    (c.op.extractLsb' 3 5 ≠ 0#5 ∨ c.op.extractLsb' 0 3 = 0#3 ∨ c.op.extractLsb' 0 3 = 6#3 ∨
      c.op.extractLsb' 0 3 = 7#3) →
    step s = .next { s with inputs := s.inputs.tail, rsp := none, freeIndex := s.freeIndex + 1, rstEdges := 0,
                            inflight := some ⟨⟨0#64, true⟩, Config.LAT_ILLEGAL, none⟩ } ∧
    Safety.checkedStep s = .fault (.illegalCommand c.op) ∧
    ((∀ k, 1 ≤ k → k ≤ Config.LAT_ILLEGAL → (sample s k).rst = false) →
      ∃ t, runEdges (Config.LAT_ILLEGAL + 1) s = .next t ∧ t.rsp = some ⟨0#64, true⟩ ∧ t.busy = false ∧
        t.regs = s.regs)

/-- R202 and R207: illegal commands anywhere in a stream leave the registers and every other response as if they had
not been there. -/
def Obligations.IllegalCommandsAreInvisible : Prop :=
  ∀ (cs : List Command) (r : Registers),
    registersAfter cs r = registersAfter (cs.filter Command.legal) r ∧
    (responsesTo cs r).filter (fun a => !a.err) = responsesTo (cs.filter Command.legal) r

/-- 60_exceptions.md R200, R201 and R207: a step answers a next state from every state but one in which the host cut a
reset short; it never refuses. The model's choices in it: it stops at a reset cut short (log 4); and it answers at an
accepted illegal word, with the error response in flight, where R201's last sentence makes IllegalCommand a fault of
the run, which is the checked step of Safety.lean (log 1). -/
def Obligations.StepNeverFails : Prop :=
  ∀ s : State, ((∃ t, step s = .next t) ↔ (s.pinsIn.rst = true ∨ s.resetCutShort = false)) ∧
    (∀ f, step s = .fault f ↔ f = .resetTooShort ∧ s.pinsIn.rst = false ∧ s.resetCutShort = true) ∧
    (∀ r, step s ≠ .refused r)

/-! ## The port -/

/-- 30_encoding.md R61, R62 and R63: an accepted command makes the port busy for its latency, in which no command is
accepted and no response presented; then its one response is presented for one cycle, with every register write
complete and the port ready again. The model's choices in it: from which side of an edge the latency is counted, and so
the number of edges (log 2); and the registers of the busy states, written from the accepting edge on (log 3). -/
def Obligations.ResponseComesExactlyAfterLatency : Prop :=
  ∀ (s : State) (c : Command), Accepts s c →
    (∀ k, 1 ≤ k → k ≤ commandLatency c → (sample s k).rst = false) →
    (∀ k, 1 ≤ k → k ≤ commandLatency c → ∃ t, runEdges k s = .next t ∧ t.busy = true ∧ t.cmdReady = false ∧
      t.presented = none ∧ t.regs = (transact c s.regs).2) ∧
    ∃ t, runEdges (commandLatency c + 1) s = .next t ∧ t.busy = false ∧ t.regs = (transact c s.regs).2 ∧
      t.rsp = some (transact c s.regs).1 ∧ t.inputs = s.inputs.drop (commandLatency c + 1) ∧
      (t.pinsIn.rst = false → t.cmdReady = true ∧
        t.pinsOut = ⟨true, true, (transact c s.regs).1.data, (transact c s.regs).1.err⟩) ∧
      ∃ u, step t = .next u ∧ u.rsp = none

/-- R61: what stands on the command pins while a command is in flight has no effect. -/
def Obligations.CommandPinsIgnoredWhileBusy : Prop :=
  ∀ (s : State) (op : OpByte) (d : Word) (v : Bool), s.busy = true → s.pinsIn.rst = false →
    step s = step { s with inputs := ⟨false, v, op, d⟩ :: s.inputs.tail }

/-- 30_encoding.md R62 and 70_reset_and_hazards.md R220: the ready signal, and the outputs while `rst` = 1. -/
def Obligations.ReadyAndOutputsInReset : Prop :=
  ∀ s : State, (s.cmdReady = true ↔ s.pinsIn.rst = false ∧ s.busy = false) ∧
    (s.pinsIn.rst = true → s.pinsOut.cmdReady = false ∧ s.pinsOut.rspValid = false)

/-- 60_exceptions.md R213: with nothing presented the registers hold their values for any number of edges, and no
response appears. -/
def Obligations.IdleBlockHoldsItsRegisters : Prop :=
  ∀ (n : Nat) (s : State), s.busy = false → s.resetCutShort = false →
    (∀ k, k < n + 1 → (sample s k).rst = false ∧ (sample s k).cmdValid = false) →
    responsesSeen n s = [] ∧ ∃ t, runEdges n s = .next t ∧ t.regs = s.regs ∧ t.busy = false

/-- 30_encoding.md R64 and 20_memory.md R47: a host that drives any commands one after another, whatever the
latencies are, gets the responses and leaves the registers of the transaction abstraction. How many idle edges the host
waits after a command is the model's reading of its latency (log 2). -/
def Obligations.DrivenPortRefinesTransactions : Prop :=
  ∀ (cs : List Command) (s : State) (rest : List PortIn), s.busy = false → s.resetCutShort = false →
    s.inputs = driveAll cs ++ rest → (rest.headD PortIn.idle).rst = false →
    responsesSeen (driveAll cs).length s = responsesTo cs s.regs ∧
    ∃ t, runEdges (driveAll cs).length s = .next t ∧ t.regs = registersAfter cs s.regs ∧ t.busy = false ∧
      t.inputs = rest

/-- 20_memory.md R47 and 30_encoding.md R63, for every behaviour of the host without reset: the responses seen,
together with the one still in flight, are those of the accepted commands in order, each exactly once, and the
registers are those after the accepted commands in order. That this holds of the registers while a command is still in
flight is the model's choice (log 3): R47 fixes them at the responses. -/
def Obligations.EveryRunServesAcceptedCommandsInOrder : Prop :=
  ∀ (n : Nat) (s t : State), s.busy = false → (∀ k, k < n + 1 → (sample s k).rst = false) →
    runEdges n s = .next t →
    responsesTo (serviceRecord n ⟨s.regs, []⟩ s).accepted s.regs =
      responsesSeen n s ++ (t.inflight.map InFlight.rsp).toList ∧
    t.regs = registersAfter (serviceRecord n ⟨s.regs, []⟩ s).accepted s.regs

/-- 20_memory.md R47 with resets: the registers are always those after the commands accepted since the last reset,
applied to the reset registers (or, before any reset, to the registers the run started from). The model's choices in
it: the registers of busy states (log 3), and the registers while `rst` is held, which are the reset values after every
single edge of it (log 4), where R221 gives them for the moment `rst` returns to 0. -/
def Obligations.RegistersFollowCommandsSinceReset : Prop :=
  ∀ (n : Nat) (h : ServiceRecord) (s t : State), registersAfter h.accepted h.base = s.regs →
    runEdges n s = .next t →
    registersAfter (serviceRecord n h s).accepted (serviceRecord n h s).base = t.regs

/-! ## Reset -/

/-- 70_reset_and_hazards.md R221, R222 and R223: `rst` held for at least `RESET_CYCLES` edges, from any state, with or
without a command in flight, gives no response and leaves exactly what `SEED DEFAULT_SEED` leaves, `BUSY` = 0, and a
port that works; the first draw is 0xBC69701D. -/
def Obligations.ResetLeavesDefaultSeededBlock : Prop :=
  (∀ (n : Nat) (s : State), Config.RESET_CYCLES ≤ n → (∀ k, k < n → (sample s k).rst = true) →
    responsesSeen n s = [] ∧
    ∃ t, runEdges n s = .next t ∧ t.regs = (seedEffect Config.DEFAULT_SEED).2 ∧ t.busy = false ∧ t.rsp = none ∧
      t.resetCutShort = false ∧ t.inputs = s.inputs.drop n) ∧
  (seedEffect Config.DEFAULT_SEED).2 = ⟨0xA81D966E14D85C11#64, 0x280AF6FDEECF029F#64, 0xA7323897838D73DB#64⟩ ∧
  (next32Effect (seedEffect Config.DEFAULT_SEED).2).1 = ⟨0xBC69701D#64, false⟩

/-- 10_state.md R31: the reset state. -/
def Obligations.ResetStateValues : Prop :=
  State.reset.regs.state = 0xA81D966E14D85C11#64 ∧ State.reset.regs.inc = 0x280AF6FDEECF029F#64 ∧
  State.reset.regs.seed = 0xA7323897838D73DB#64 ∧ State.reset.busy = false ∧ State.reset.rsp = none ∧
  Config.MULT = 6364136223846793005#64 ∧ Config.DEFAULT_INC = 1442695040888963407#64 ∧
  Config.DEFAULT_SEED = 12047754176567800795#64 ∧ (seedEffect Config.DEFAULT_SEED).2 = State.reset.regs

/-- 60_exceptions.md R205: reset comes before everything else at an edge. That one edge with `rst` = 1, perhaps fewer
than `RESET_CYCLES`, already gives the reset registers and clears `BUSY` is the model's choice (log 4), where
70_reset_and_hazards.md R221 gives them for the moment `rst` returns to 0. -/
def Obligations.ResetComesFirst : Prop :=
  ∀ s : State, s.pinsIn.rst = true → ∃ t, step s = .next t ∧ t.regs = Registers.reset ∧ t.busy = false ∧
    t.rsp = none ∧ s.presented = none ∧ s.cmdReady = false ∧ t.inputs = s.inputs.tail

/-- Every step keeps the invariant of Safety.lean, from every state that has it. Its clause on held reset, and `INC`
right after one reset edge, rest on the model's choice of what a reset edge does (log 4). -/
def Obligations.StepKeepsInvariant : Prop :=
  ∀ s t : State, Safety.Inv s → step s = .next t → Safety.Inv t

/-- The reset state has the invariant; the clause on `rstEdges` rests on its chosen value 0 (log 4). -/
def Obligations.ResetHasInvariant : Prop := Safety.Inv State.reset

/-- A run that the checked step (Safety.lean, log 1) lets through does not stop and accepts only legal commands. -/
def Obligations.SafeRunsAcceptOnlyLegalCommands : Prop :=
  ∀ (n : Nat) (s : State), Safety.safeFor n s = true →
    (∃ t, runEdges n s = .next t) ∧ ∀ c ∈ (serviceRecord n ⟨s.regs, []⟩ s).accepted, c.legal = true

/-! ## Several requesters, several instances -/

/-- 20_memory.md R49 and R44: under every interleaving, requesters that only read leave another's responses, and the
registers, as if it were alone. -/
def Obligations.ReadersDoNotDisturbOtherRequesters : Prop :=
  ∀ (streams : Nat → List Command) (zs : List (Nat × Command)) (j : Nat) (r : Registers),
    IsInterleaving streams zs → (∀ k, k ≠ j → ∀ c ∈ streams k, readsOnly c = true) →
    requesterResponses j zs r = responsesTo (streams j) r ∧
    registersAfter (zs.map Prod.snd) r = registersAfter (streams j) r

/-- 60_exceptions.md R211: an edge of one instance leaves every other as it was; and whatever state an instance is in,
after a reset it answers a driven command stream as the reset registers do, so all instances produce one stream. -/
def Obligations.InstancesShareNothing : Prop :=
  (∀ (k j : Nat) (sys : List State), (stepInstance k sys).length = sys.length ∧
    (k ≠ j → (stepInstance k sys)[j]? = sys[j]?) ∧
    (∀ s, sys[k]? = some s → ∀ t, step s = .next t → (stepInstance k sys)[k]? = some t)) ∧
  (∀ (n : Nat) (cs : List Command) (s : State), Config.RESET_CYCLES ≤ n →
    s.inputs = List.replicate n PortIn.reset ++ driveAll cs →
    responsesSeen (n + (driveAll cs).length) s = responsesTo cs Registers.reset)

/-! ## Host sequences -/

/-- 45_host_sequences.md R152: the threshold of BOUNDED. -/
def Obligations.BoundThresholdIsPowerRemainder : Prop :=
  ∀ b : BitVec 32, b ≠ 0#32 →
    (boundThreshold b).toNat = 2 ^ 32 % b.toNat ∧ boundThreshold b < b ∧ (boundThreshold b).toNat < 2 ^ 31 ∧
    b.toNat ∣ 2 ^ 32 - (boundThreshold b).toNat

/-- R151 and R154: BOUNDED with a bound other than 0 makes `k` ≥ 1 draws and nothing else, rejects all but the last,
and returns the last modulo the bound; or its fuel ends first (log 7). Other requesters may draw in between
(20_memory.md R49); where none does, the draws are consecutive ones of the stream. -/
def Obligations.BoundedReturnsFirstAcceptedDraw : Prop :=
  (∀ (fuel : Nat) (b : BitVec 32) (h : HostState), b ≠ 0#32 →
    (∃ k, k < fuel ∧ boundThreshold b ≤ drawSeen k h ∧ (∀ m, m < k → drawSeen m h < boundThreshold b) ∧
      seqBounded fuel b h = ⟨.value (drawSeen k h % b), afterDraws (k + 1) h⟩ ∧ drawSeen k h % b < b) ∨
    ((∀ m, m < fuel → drawSeen m h < boundThreshold b) ∧
      seqBounded fuel b h = ⟨.refused .outOfFuel, afterDraws fuel h⟩)) ∧
  (∀ (k : Nat) (h : HostState), (afterDraws k h).issued = h.issued ++ draws k) ∧
  (∀ (k : Nat) (h : HostState), h.others = [] →
    drawSeen k h = advanceOutput (registersAfter (draws k) h.regs).state ∧
    afterDraws k h = ⟨registersAfter (draws k) h.regs, [], h.served ++ (draws k).map fun c => (0, c)⟩)

/-- R153, R155 and R156: the host faults issue no command; the span is 0 for the full range alone. -/
def Obligations.HostFaultsIssueNoCommand : Prop :=
  (∀ (fuel : Nat) (h : HostState), seqBounded fuel 0#32 h = ⟨.fault .boundZero, h⟩) ∧
  (∀ (fuel : Nat) (k : BitVec 32) (h : HostState), seqRanged fuel k k h = ⟨.value k, h⟩) ∧
  (∀ f t : BitVec 32, rangeSpan f t = 0#32 ↔
    (f = 0x80000000#32 ∧ t = 0x7FFFFFFF#32) ∨ (f = 0x7FFFFFFF#32 ∧ t = 0x80000000#32)) ∧
  (∀ (fuel : Nat) (f t : BitVec 32) (h : HostState), rangeSpan f t = 0#32 →
    seqRanged fuel f t h = ⟨.fault .rangeFull, h⟩)

/-- R155: a value of RANGED lies between its ends, it is the lower end plus a BOUNDED of the span, and the order of
the ends does not matter. -/
def Obligations.RangedLiesBetweenItsEnds : Prop :=
  ∀ (fuel : Nat) (f t : BitVec 32) (h : HostState),
    seqRanged fuel f t h = seqRanged fuel t f h ∧
    (∀ v, (seqRanged fuel f t h).ending = .value v →
      min f.toInt t.toInt ≤ v.toInt ∧ v.toInt ≤ max f.toInt t.toInt) ∧
    (f ≠ t → ∀ v, (seqBounded fuel (rangeSpan f t) h).ending = .value v →
      ∃ u, (seqRanged fuel f t h).ending = .value u ∧ u.toInt = min f.toInt t.toInt + v.toNat)

/-- R158 and R159: NEXTF32 returns +0 exactly when its first draw is 0, and else a value from 2^-32 to 1.0, which is
1.0 exactly when the first draw has its top bit set and the mantissa is at least 0xFFFFFF81; with R159's example. -/
def Obligations.NextF32Range : Prop :=
  ∀ h : HostState,
    let e := drawSeen 0 h
    let r := drawSeen 1 h
    (e = 0#32 → seqNextF32 h = ⟨.value 0#32, afterDraws 1 h⟩) ∧
    (e ≠ 0#32 → ∃ x, seqNextF32 h = ⟨.value x, afterDraws 2 h⟩ ∧
      0x2F800000#32 ≤ x ∧ x ≤ 0x3F800000#32 ∧
      (x = 0x3F800000#32 ↔ 0x80000000#32 ≤ e ∧ 0xFFFFFF81#32 ≤ r ||| 0x80000001#32)) ∧
    (h.others = [] → h.regs.state = 0x5E4231E510087785#64 → h.regs.inc = Registers.reset.inc →
      e = 0xD6790899#32 ∧ r = 0xFFFFFFFF#32 ∧ (seqNextF32 h).ending = .value 0x3F800000#32)

/-- R157: rounding the exact datum of a binary32 pattern gives the pattern back, and no tie arises in scaling a
mantissa draw. -/
def Obligations.RoundingIsExactOnBinary32 : Prop :=
  (∀ (n x : Binary32), NotNaN x → roundF32 n (datum32 x) = x) ∧
  (∀ r : Draw, 2 * ((mantissaOf r).toNat % 2 ^ 8) ≠ 2 ^ 8)

/-- R161: FRANGE with equal finite ends returns the end widened, but that an end -0 gives +0. -/
def Obligations.FrangeOfEqualEnds : Prop :=
  ∀ (P : Config.HostParams) (f : Binary32) (h : HostState), Finite32 f →
    (f ≠ 0x80000000#32 → (seqFrange P f f h).ending = .value (widen64 P f)) ∧
    (f = 0x80000000#32 → (seqFrange P f f h).ending = .value 0#64)

/-- R163: NORMAL with deviation 0 returns the mean widened, with its draws consumed, whatever the open parameters are
as long as the cosine and the square root that this run computes are finite; a mean -0 may give +0. The two uniforms of
a run always exist. -/
def Obligations.NormalOfZeroDeviation : Prop :=
  (∀ h : HostState, ∃ u h', seqNextF32 h = ⟨.value u, h'⟩ ∧ u ≤ 0x3F800000#32) ∧
  (∀ (P : Config.HostParams) (m d u1 u2 : Binary32) (h h1 h2 : HostState), NotNaN m → IsZero32 d →
    seqNextF32 h = ⟨.value u1, h1⟩ → seqNextF32 h1 = ⟨.value u2, h2⟩ →
    Finite32 (P.HOST_COS (tauTimes P u2)) →
    Finite32 (P.HOST_SQRT (mulF32 P minusTwo (P.HOST_LOG (clampUniform P u1)))) →
    (seqNormal P m d h).host = h2 ∧
    ((seqNormal P m d h).ending = .value (widen64 P m) ∨
      (m = 0x80000000#32 ∧ (seqNormal P m d h).ending = .value 0#64)))

/-- R164: RANDOMIZE reads the state word, seeds with `t * STATE + DEFAULT_INC`, and draws nothing. What it reads is the
`STATE` at its GETSTATE, after any command of another requester (20_memory.md R49). -/
def Obligations.RandomizeReseeds : Prop :=
  (∀ (t : Word) (h : HostState),
    let sd := t * h.arbitrate.regs.state + 1442695040888963407#64
    seqRandomize t h = ⟨.value (), (h.afterCommand ⟨0x05#8, 0#64⟩).afterCommand ⟨0x02#8, sd⟩⟩ ∧
    (seqRandomize t h).host.regs = (seedEffect sd).2 ∧
    (seqRandomize t h).host.issued = h.issued ++ [⟨0x05#8, 0#64⟩, ⟨0x02#8, sd⟩] ∧
    (h.others = [] → sd = t * h.regs.state + 1442695040888963407#64)) ∧
  (1700000000#64 * Registers.reset.state + 1442695040888963407#64 = 0x228D3B973496824F#64) ∧
  (next32Effect (seedEffect 0x228D3B973496824F#64).2).1 = ⟨0x92E03374#64, false⟩

/-- R165: what each sequence issues, when it ends with a value. -/
def Obligations.HostSequenceDrawCounts : Prop :=
  ∀ (P : Config.HostParams) (fuel : Nat) (h : HostState),
    ((seqAdvance h).host.issued = h.issued ++ draws 1) ∧
    (∃ k, 1 ≤ k ∧ k ≤ 2 ∧ (seqNextF32 h).host.issued = h.issued ++ draws k ∧
      (seqNextF64 P h).host.issued = h.issued ++ draws k ∧
      (∀ f t, (seqFrange P f t h).host.issued = h.issued ++ draws k)) ∧
    (∀ m d, ∃ k, 2 ≤ k ∧ k ≤ 4 ∧ (seqNormal P m d h).host.issued = h.issued ++ draws k) ∧
    (∀ f t, f ≠ t → rangeSpan f t ≠ 0#32 →
      (seqRanged fuel f t h).host = (seqBounded fuel (rangeSpan f t) h).host)

/-- R150: every pseudo-instruction drives the block by legal commands alone, and the registers are those that the
served stream leaves, which is the sequence's own commands alone where no other requester shares the block; it never
meets an error response, and the leading-zero count at 0 is never evaluated. -/
def Obligations.HostSequencesAreCommandStreams : Prop :=
  ∀ (P : Config.HostParams) (fuel : Nat) (p : Pseudo) (h : HostState),
    ∃ zs, (runPseudo P fuel p h).host.served = h.served ++ zs ∧
      (runPseudo P fuel p h).host.regs = registersAfter (zs.map Prod.snd) h.regs ∧
      (∀ c ∈ requesterCommands 0 zs, c.legal = true) ∧
      (h.others = [] → ∀ z ∈ zs, z.1 = 0) ∧
      (runPseudo P fuel p h).ending ≠ .fault .blockError ∧
      (runPseudo P fuel p h).ending ≠ .refused .leadingZerosOfZero ∧
      (p.wellFormed = true → ∀ f, (runPseudo P fuel p h).ending ≠ .fault f)

/-- 45_host_sequences.md R157: widening a binary32 pattern to binary64 is exact, subnormals, zeros and infinities
included, and a NaN stays a NaN. The layout of the two formats is presumed (log 8). -/
def Obligations.WideningIsExact : Prop :=
  ∀ (P : Config.HostParams) (x : Binary32), SameValue (datum32 x) (datum64 (widen64 P x))

/-- 45_host_sequences.md R160: NEXTF64 ends with the value of NEXTF32 widened exactly, after the same draws; +0.0 and
1.0 are the binary64 +0.0 and 1.0. The layout of the two formats is presumed (log 8). -/
def Obligations.NextF64WidensNextF32 : Prop :=
  ∀ (P : Config.HostParams) (h : HostState), ∃ u h', seqNextF32 h = ⟨.value u, h'⟩ ∧
    ∃ v, seqNextF64 P h = ⟨.value v, h'⟩ ∧ SameValue (datum32 u) (datum64 v) ∧
      (u = 0#32 → v = 0#64) ∧ (u = 0x3F800000#32 → v = 0x3FF0000000000000#64)

/-- 20_memory.md R49: what a sequence and the other requesters have the block serve is an interleaving of its own
commands and of theirs, of which one list is served before each of its commands; and every interleaving that ends with
a command of this host arises so, whatever its commands are. -/
def Obligations.HostSequencesInterleaveWithOthers : Prop :=
  (∀ (P : Config.HostParams) (fuel : Nat) (p : Pseudo) (h : HostState), ∃ own zs,
    (runPseudo P fuel p h).host.issued = h.issued ++ own ∧
    (runPseudo P fuel p h).host.served = h.served ++ zs ∧
    (runPseudo P fuel p h).host.regs = registersAfter (zs.map Prod.snd) h.regs ∧
    (runPseudo P fuel p h).host.others = h.others.drop own.length ∧
    IsInterleaving
      (fun j => match j with
        | 0 => own
        | j + 1 => requesterCommands j (h.others.take own.length).flatten) zs) ∧
  (∀ (r : Registers) (zs : List (Nat × Command)) (c : Command), ∃ others,
    (requesterCommands 0 (zs ++ [(0, c)])).foldl (fun (h : HostState) d => h.afterCommand d) ⟨r, others, []⟩ =
      ⟨registersAfter ((zs ++ [(0, c)]).map Prod.snd) r, [], zs ++ [(0, c)]⟩)

/-- 20_memory.md R49 and R44: other requesters that only read, wherever their commands fall, leave every sequence's
ending, its commands and the registers as if it held the block alone. -/
def Obligations.ReadersDoNotDisturbHostSequences : Prop :=
  ∀ (P : Config.HostParams) (fuel : Nat) (p : Pseudo) (h : HostState),
    (∀ zs ∈ h.others, ∀ z ∈ zs, readsOnly z.2 = true) →
    (runPseudo P fuel p h).ending = (runPseudo P fuel p { h with others := [] }).ending ∧
    (runPseudo P fuel p h).host.issued = (runPseudo P fuel p { h with others := [] }).host.issued ∧
    (runPseudo P fuel p h).host.regs = (runPseudo P fuel p { h with others := [] }).host.regs

/-- 20_memory.md R49: a draw of another requester between the two draws of NEXTF32 makes the sequence consume a
different part of the stream, its mantissa being the third draw; the sequence ends with a value all the same, since the
block cannot tell. -/
def Obligations.DrawInBetweenShiftsNextF32 : Prop :=
  ∀ (r : Registers) (j : Nat), advanceOutput r.state ≠ 0#32 →
    ∃ z, clz32 (advanceOutput r.state) = some z ∧
    (seqNextF32 ⟨r, [[], [(j, next32Command)]], []⟩).ending = .value
      (scaleDraw (mantissaOf (advanceOutput (registersAfter (draws 2) r).state)) (-32 - (z : Int))) ∧
    (seqNextF32 ⟨r, [], []⟩).ending = .value
      (scaleDraw (mantissaOf (advanceOutput (registersAfter (draws 1) r).state)) (-32 - (z : Int))) ∧
    (seqNextF32 ⟨r, [[], [(j, next32Command)]], []⟩).host.regs = registersAfter (draws 3) r
end

