-- ==== Sys2Proof/Laws/Config.lean ====
section
/-! SUPPORT. The open timing parameters are positive (00_scope.md R10), and `INC_SEEDED` has the value of R9. -/

namespace Sys2Proof.Machine

theorem latency_pos (i : Instr) : 1 ≤ instrLatency i := by
  cases i <;> exact Nat.succ_pos _

theorem illegal_latency_pos : 1 ≤ Config.LAT_ILLEGAL := Nat.succ_pos _

theorem reset_cycles_pos : 1 ≤ Config.RESET_CYCLES := Nat.succ_pos _

theorem commandLatency_pos (c : Command) : 1 ≤ commandLatency c := by
  unfold commandLatency
  split
  · exact latency_pos _
  · exact illegal_latency_pos

theorem inc_seeded_value : Config.INC_SEEDED = 0x280AF6FDEECF029F#64 := by decide

end Sys2Proof.Machine
end

