-- ==== Sys2Proof/Laws/Decode.lean ====
section
/-! SUPPORT. Everything the decoder can answer. -/

namespace Sys2Proof

/-- The decoder's answer, command word by command word (30_encoding.md R67, R68). -/
theorem decode_cases (c : Command) :
    (c.op = 0x01#8 ∧ decode c = .ok .next32) ∨ (c.op = 0x02#8 ∧ decode c = .ok (.seed c.data)) ∨
    (c.op = 0x03#8 ∧ decode c = .ok .getseed) ∨ (c.op = 0x04#8 ∧ decode c = .ok (.setstate c.data)) ∨
    (c.op = 0x05#8 ∧ decode c = .ok .getstate) ∨
    (c.legal = false ∧ decode c = .error (.illegalCommand c.op)) := by
  obtain ⟨op, d⟩ := c
  have h : op = 0x01#8 ∨ op = 0x02#8 ∨ op = 0x03#8 ∨ op = 0x04#8 ∨ op = 0x05#8 ∨
      (op.rsvZero && op.opcAssigned) = false := by revert op; decide
  have hill : (op.rsvZero && op.opcAssigned) = false →
      decode ⟨op, d⟩ = .error (.illegalCommand op) := by
    intro hl
    by_cases hr : rsvField op = 0#5
    · have hn : decodeOpc (opcField op) d = none := by
        have : opcField op = 0#3 ∨ opcField op = 6#3 ∨ opcField op = 7#3 := by
          revert hl hr; clear h; revert op; decide
        rcases this with h | h | h <;> simp [decodeOpc, h]
      simp [decode, hr, hn]
    · simp [decode, hr]
  rcases h with rfl | rfl | rfl | rfl | rfl | h
  · exact .inl ⟨rfl, by simp [decode, decodeOpc, rsvField, opcField]⟩
  · exact .inr (.inl ⟨rfl, by simp [decode, decodeOpc, rsvField, opcField]⟩)
  · exact .inr (.inr (.inl ⟨rfl, by simp [decode, decodeOpc, rsvField, opcField]⟩))
  · exact .inr (.inr (.inr (.inl ⟨rfl, by simp [decode, decodeOpc, rsvField, opcField]⟩)))
  · exact .inr (.inr (.inr (.inr (.inl ⟨rfl, by simp [decode, decodeOpc, rsvField, opcField]⟩))))
  · exact .inr (.inr (.inr (.inr (.inr ⟨h, hill h⟩))))

end Sys2Proof
end

