-- ==== Sys2Proof/Laws/State.lean ====
section
/-! SUPPORT. One lemma per field per update of the state. -/

namespace Sys2Proof.Machine

variable (s : State)

/-! ## A response is put in flight -/

section Respond
variable (regs : Registers) (rsp : Response) (lat : Nat) (g : Option SeedStages)

@[simp] theorem respond_regs : (s.respond regs rsp lat g).regs = regs := rfl
@[simp] theorem respond_inflight : (s.respond regs rsp lat g).inflight = some ⟨rsp, lat, g⟩ := rfl
@[simp] theorem respond_rsp : (s.respond regs rsp lat g).rsp = s.rsp := rfl
@[simp] theorem respond_rstEdges : (s.respond regs rsp lat g).rstEdges = s.rstEdges := rfl
@[simp] theorem respond_inputs : (s.respond regs rsp lat g).inputs = s.inputs := rfl
@[simp] theorem respond_freeIndex : (s.respond regs rsp lat g).freeIndex = s.freeIndex := rfl
@[simp] theorem respond_busy : (s.respond regs rsp lat g).busy = true := rfl

end Respond

/-! ## The error response -/

@[simp] theorem raiseIllegalCommand_regs : s.raiseIllegalCommand.regs = s.regs := rfl
@[simp] theorem raiseIllegalCommand_inflight :
    s.raiseIllegalCommand.inflight = some ⟨errorResponse, Config.LAT_ILLEGAL, none⟩ := rfl
@[simp] theorem raiseIllegalCommand_rsp : s.raiseIllegalCommand.rsp = s.rsp := rfl
@[simp] theorem raiseIllegalCommand_rstEdges : s.raiseIllegalCommand.rstEdges = s.rstEdges := rfl
@[simp] theorem raiseIllegalCommand_inputs : s.raiseIllegalCommand.inputs = s.inputs := rfl
@[simp] theorem raiseIllegalCommand_freeIndex : s.raiseIllegalCommand.freeIndex = s.freeIndex := rfl

/-! ## An edge passes -/

@[simp] theorem nextCycle_regs : s.nextCycle.regs = s.regs := rfl
@[simp] theorem nextCycle_inflight : s.nextCycle.inflight = s.inflight := rfl
@[simp] theorem nextCycle_rsp : s.nextCycle.rsp = none := rfl
@[simp] theorem nextCycle_rstEdges : s.nextCycle.rstEdges = s.rstEdges := rfl
@[simp] theorem nextCycle_inputs : s.nextCycle.inputs = s.inputs.tail := rfl
@[simp] theorem nextCycle_freeIndex : s.nextCycle.freeIndex = s.freeIndex + 1 := rfl

@[simp] theorem clocked_regs : s.clocked.regs = s.regs := rfl
@[simp] theorem clocked_inflight : s.clocked.inflight = s.inflight := rfl
@[simp] theorem clocked_rsp : s.clocked.rsp = none := rfl
@[simp] theorem clocked_rstEdges : s.clocked.rstEdges = 0 := rfl
@[simp] theorem clocked_inputs : s.clocked.inputs = s.inputs.tail := rfl
@[simp] theorem clocked_freeIndex : s.clocked.freeIndex = s.freeIndex + 1 := rfl

@[simp] theorem resetEdge_regs : s.resetEdge.regs = Registers.reset := rfl
@[simp] theorem resetEdge_inflight : s.resetEdge.inflight = none := rfl
@[simp] theorem resetEdge_rsp : s.resetEdge.rsp = none := rfl
@[simp] theorem resetEdge_rstEdges : s.resetEdge.rstEdges = s.rstEdges + 1 := rfl
@[simp] theorem resetEdge_inputs : s.resetEdge.inputs = s.inputs.tail := rfl
@[simp] theorem resetEdge_freeIndex : s.resetEdge.freeIndex = s.freeIndex + 1 := rfl

/-! ## A command in flight goes on -/

section Progress
variable (f : InFlight)

@[simp] theorem progress_regs : (s.progress f).regs = s.regs := by unfold State.progress; split <;> rfl
@[simp] theorem progress_rstEdges : (s.progress f).rstEdges = 0 := by unfold State.progress; split <;> rfl
@[simp] theorem progress_inputs : (s.progress f).inputs = s.inputs.tail := by unfold State.progress; split <;> rfl
@[simp] theorem progress_freeIndex : (s.progress f).freeIndex = s.freeIndex + 1 := by
  unfold State.progress; split <;> rfl

variable {f}

theorem progress_last (h : f.left ≤ 1) :
    s.progress f = { s.clocked with inflight := none, rsp := some f.rsp } := by simp [State.progress, h]

theorem progress_more (h : 1 < f.left) :
    s.progress f = { s.clocked with inflight := some { f with left := f.left - 1 } } := by
  simp [State.progress, Nat.not_le.mpr h]

end Progress

/-! ## A command word is put at the pins -/

section Fetch
variable (nbits w : Nat)

@[simp] theorem withFetchWord_regs : (s.withFetchWord nbits w).regs = s.regs := rfl
@[simp] theorem withFetchWord_inflight : (s.withFetchWord nbits w).inflight = none := rfl
@[simp] theorem withFetchWord_rsp : (s.withFetchWord nbits w).rsp = s.rsp := rfl
@[simp] theorem withFetchWord_rstEdges : (s.withFetchWord nbits w).rstEdges = 0 := rfl
@[simp] theorem withFetchWord_freeIndex : (s.withFetchWord nbits w).freeIndex = s.freeIndex := rfl
@[simp] theorem withFetchWord_pinsIn :
    (s.withFetchWord nbits w).pinsIn = PortIn.present (commandOfWord nbits w) := rfl

end Fetch

end Sys2Proof.Machine
end

