-- ==== Sys2Proof/Laws/Ops.lean ====
section
/-! SUPPORT. One lemma for each shared operation that says once what it can do: the datapath, the port's edge, one
command as a transaction, the instructions and the step. -/

namespace Sys2Proof.Machine

/-! ## The datapath -/

@[simp] theorem advance_output (r : Registers) : r.advance.1 = advanceOutput r.state := rfl
@[simp] theorem advance_state (r : Registers) : r.advance.2.state = lcgNext r.state r.inc := rfl
@[simp] theorem advance_inc (r : Registers) : r.advance.2.inc = r.inc := rfl
@[simp] theorem advance_seed (r : Registers) : r.advance.2.seed = r.seed := rfl

theorem lcgNext_zero (inc : Word) : lcgNext 0#64 inc = inc ||| 1#64 := by simp [lcgNext]

/-! ## Responses -/

@[simp] theorem okResponse_data (d : Word) : (okResponse d).data = d := rfl
@[simp] theorem okResponse_err (d : Word) : (okResponse d).err = false := rfl
@[simp] theorem errorResponse_data : errorResponse.data = 0#64 := rfl
@[simp] theorem errorResponse_err : errorResponse.err = true := by decide

/-! ## The steps of SEED -/

theorem seedMixIncrement_eq (data : Word) :
    seedMixIncrement data = ⟨Config.INC_SEEDED, Config.INC_SEEDED, data⟩ := by
  have h : lcgNext 0#64 Config.INC_SEEDED = Config.INC_SEEDED := by decide
  simp only [seedMixIncrement, seedStart, Registers.advance, dataOperand]
  exact congrArg (fun w => Registers.mk w Config.INC_SEEDED data) h

theorem seedAddSeed_eq (data : Word) :
    seedAddSeed data = ⟨Config.INC_SEEDED + data, Config.INC_SEEDED, data⟩ := by
  simp [seedAddSeed, seedMixIncrement_eq, dataOperand]

theorem seedMixSeed_eq (data : Word) :
    seedMixSeed data = ⟨lcgNext (Config.INC_SEEDED + data) Config.INC_SEEDED, Config.INC_SEEDED, data⟩ := by
  simp [seedMixSeed, seedAddSeed_eq, Registers.advance]

/-! ## Instructions -/

/-- An instruction is its transaction, put in flight with its own latency. -/
theorem exec_eq (i : Instr) (s : State) :
    exec i s = .next (s.respond (instrEffect i s.regs).2 (instrEffect i s.regs).1 (instrLatency i)
      (instrStages i)) := by
  cases i <;> rfl

/-- A legal response carries no error bit. -/
@[simp] theorem instrEffect_err (i : Instr) (r : Registers) : (instrEffect i r).1.err = false := by
  cases i <;> rfl

/-- An instruction keeps `INC` or sets it to `INC_SEEDED`. -/
theorem instrEffect_inc (i : Instr) (r : Registers) :
    (instrEffect i r).2.inc = r.inc ∨ (instrEffect i r).2.inc = Config.INC_SEEDED := by
  cases i with
  | seed data => exact .inr (by simp [instrEffect, seedEffect, seedMixSeed_eq])
  | _ => exact .inl rfl

/-- Only a SEED holds intermediate values, and the first of them is `INC_SEEDED`. -/
theorem instrStages_first (i : Instr) (g : SeedStages) (h : instrStages i = some g) :
    g.afterFirstAdvance = Config.INC_SEEDED := by
  cases i with
  | seed data =>
    simp only [instrStages, seedStages, Option.some.injEq] at h
    simp [← h, seedMixIncrement_eq]
  | _ => simp [instrStages] at h

/-! ## A command is accepted -/

/-- What accepting a command can do: it always answers a next state, its transaction put in flight. -/
theorem acceptCommand_eq (c : Command) (s : State) :
    ∃ g, acceptCommand c s = .next (s.respond (transact c s.regs).2 (transact c s.regs).1 (commandLatency c) g) ∧
      ∀ g', g = some g' → g'.afterFirstAdvance = Config.INC_SEEDED := by
  unfold acceptCommand transact commandLatency
  cases h : decode c with
  | ok i => exact ⟨instrStages i, exec_eq i s, fun g' => instrStages_first i g'⟩
  | error e => exact ⟨none, rfl, by simp⟩

/-! ## The step -/

/-- Everything a step that answers a next state can do. -/
theorem step_cases {s t : State} (h : step s = .next t) :
    (s.event = .reset ∧ t = s.resetEdge) ∨
    (∃ f, s.event = .busy f ∧ t = s.progress f) ∨
    (∃ c g, s.event = .command c ∧
      t = s.clocked.respond (transact c s.regs).2 (transact c s.regs).1 (commandLatency c) g ∧
      ∀ g', g = some g' → g'.afterFirstAdvance = Config.INC_SEEDED) ∨
    (s.event = .idle ∧ t = s.clocked) := by
  unfold step at h
  cases he : s.event with
  | reset => simp only [he, Host.Outcome.next.injEq] at h; exact .inl ⟨rfl, h.symm⟩
  | resetTooShort => simp [he] at h
  | busy f => simp only [he, Host.Outcome.next.injEq] at h; exact .inr (.inl ⟨f, rfl, h.symm⟩)
  | command c =>
    obtain ⟨g, hg, hf⟩ := acceptCommand_eq c s.clocked
    simp only [he, hg, Host.Outcome.next.injEq] at h
    exact .inr (.inr (.inl ⟨c, g, rfl, by simpa using h.symm, hf⟩))
  | idle => simp only [he, Host.Outcome.next.injEq] at h; exact .inr (.inr (.inr ⟨rfl, h.symm⟩))

/-! ## What the coming edge is -/

theorem event_reset {s : State} (h : s.pinsIn.rst = true) : s.event = .reset := by simp [State.event, h]

theorem event_busy {s : State} {f : InFlight} (hr : s.pinsIn.rst = false) (hc : s.resetCutShort = false)
    (hf : s.inflight = some f) : s.event = .busy f := by simp [State.event, hr, hc, hf]

theorem event_command {s : State} (hr : s.pinsIn.rst = false) (hc : s.resetCutShort = false)
    (hf : s.inflight = none) (hv : s.pinsIn.cmdValid = true) :
    s.event = .command ⟨s.pinsIn.cmdOp, s.pinsIn.cmdData⟩ := by simp [State.event, hr, hc, hf, hv]

theorem event_idle {s : State} (hr : s.pinsIn.rst = false) (hc : s.resetCutShort = false)
    (hf : s.inflight = none) (hv : s.pinsIn.cmdValid = false) : s.event = .idle := by
  simp [State.event, hr, hc, hf, hv]

/-- What each event says of the pins and the state. -/
theorem event_spec (s : State) :
    match s.event with
    | .reset => s.pinsIn.rst = true
    | .resetTooShort => s.pinsIn.rst = false ∧ s.resetCutShort = true
    | .busy f => s.pinsIn.rst = false ∧ s.resetCutShort = false ∧ s.inflight = some f
    | .command c => s.pinsIn.rst = false ∧ s.resetCutShort = false ∧ s.inflight = none ∧
        s.pinsIn.cmdValid = true ∧ c = ⟨s.pinsIn.cmdOp, s.pinsIn.cmdData⟩
    | .idle => s.pinsIn.rst = false ∧ s.resetCutShort = false ∧ s.inflight = none ∧ s.pinsIn.cmdValid = false := by
  unfold State.event
  cases hr : s.pinsIn.rst <;> cases hc : s.resetCutShort <;> cases hf : s.inflight <;>
    cases hv : s.pinsIn.cmdValid <;> simp

end Sys2Proof.Machine
end

