-- ==== Sys2Proof/Laws/PerInstr.lean ====
section
/-! SUPPORT. The family EncodedWordIsLegal: the word of an instruction passes the check of legal command words, and
the instruction is well formed. -/

namespace Sys2Proof.Laws.EncodedWordIsLegal

/-- The encoded command is legal (30_encoding.md R68), and the instruction is well formed. -/
def Statement (i : Instr) : Prop := (encode i).legal = true ∧ i.wellFormed = true

theorem next32 : Statement .next32 := ⟨by decide, rfl⟩

theorem seed (data : Word) : Statement (.seed data) := ⟨by simp only [Command.legal, encode, opcOf]; decide, rfl⟩

theorem getseed : Statement .getseed := ⟨by decide, rfl⟩

theorem setstate (data : Word) : Statement (.setstate data) :=
  ⟨by simp only [Command.legal, encode, opcOf]; decide, rfl⟩

theorem getstate : Statement .getstate := ⟨by decide, rfl⟩

end Sys2Proof.Laws.EncodedWordIsLegal
end

