-- ==== Sys2Proof/Laws/Sequences.lean ====
section
/-! SUPPORT. What one command and one draw of a host sequence do. -/

namespace Sys2Proof.Machine

theorem decode_encode_next32 : decode (encode .next32) = .ok .next32 := by decide

theorem transact_next32 (r : Registers) : transact (encode .next32) r = next32Effect r := by
  simp only [transact, decode_encode_next32]; rfl

theorem u32_zext64 (v : Draw) : u32 (zext64 v) = v := by
  simp only [u32, zext64]
  exact BitVec.setWidth_setWidth_of_le v (by decide)

/-- A draw: the output of one advance, after the other requesters' turn; one NEXT32 issued. -/
theorem draw_eq (h : HostState) :
    draw h = ⟨.value (advanceOutput h.arbitrate.regs.state), h.afterCommand (encode .next32)⟩ := by
  simp [draw, issueCommand, SeqRun.andThen, transact_next32, next32Effect, HostState.done, drawResponseData,
    u32_zext64]

theorem requesterCommands_append (j : Nat) (ys zs : List (Nat × Command)) :
    requesterCommands j (ys ++ zs) = requesterCommands j ys ++ requesterCommands j zs := by
  simp [requesterCommands]

/-- Other requesters' commands are none of this host's. -/
@[simp] theorem requesterCommands_zero_othersNext (h : HostState) : requesterCommands 0 h.othersNext = [] := by
  simp [requesterCommands, HostState.othersNext, List.filter_map, Function.comp_def]

/-- Nothing listed: the arbiter serves nobody else. -/
theorem arbitrate_alone {h : HostState} (ho : h.others = []) : h.arbitrate = h := by
  cases h
  simp_all [HostState.arbitrate, HostState.othersNext, registersAfter]

section AfterCommand
variable (c : Command) (h : HostState)

@[simp] theorem afterCommand_regs : (h.afterCommand c).regs = (transact c h.arbitrate.regs).2 := rfl
@[simp] theorem afterCommand_others : (h.afterCommand c).others = h.others.tail := rfl
@[simp] theorem afterCommand_served : (h.afterCommand c).served = h.served ++ h.othersNext ++ [(0, c)] := rfl
@[simp] theorem afterCommand_issued : (h.afterCommand c).issued = h.issued ++ [c] := by
  simp [HostState.issued, requesterCommands_append]
  simp [requesterCommands]

end AfterCommand

section AndThen
variable {α β : Type} (a : α) (e : Fault) (r : Refusal) (h : HostState) (f : α → HostState → SeqRun β)

@[simp] theorem andThen_value : (⟨.value a, h⟩ : SeqRun α).andThen f = f a h := rfl
@[simp] theorem andThen_fault : (⟨.fault e, h⟩ : SeqRun α).andThen f = ⟨.fault e, h⟩ := rfl
@[simp] theorem andThen_refused : (⟨.refused r, h⟩ : SeqRun α).andThen f = ⟨.refused r, h⟩ := rfl

end AndThen

end Sys2Proof.Machine
end

