-- ==== Sys2Proof/Tests/Slice0.lean ====
section
/-! SUPPORT. The model's own tests. Expected values come from the worked examples of spec/ and the vectors of
95_test_vectors.md, named where they are used; the witnesses show that the hypotheses of the obligations can be met. -/

namespace Sys2Proof.Tests

open Sys2Proof.Machine Sys2Proof.Claims

/-! ## Ill-formed terms are refused -/

theorem test_wellFormed_reserved_bit : (Command.mk 0b00001001#8 0#64).legal = false := by decide
theorem test_wellFormed_opc_zero : (Command.mk 0b00000000#8 0#64).legal = false := by decide
theorem test_wellFormed_opc_six : (Command.mk 0b00000110#8 0#64).legal = false := by decide
theorem test_wellFormed_opc_seven : (Command.mk 0b00000111#8 0#64).legal = false := by decide
theorem test_wellFormed_legal_word : (Command.mk 0b00000101#8 7#64).legal = true := by decide
theorem test_wellFormed_operand_too_wide :
    (ScriptLine.command none .seed (some (.number (2 ^ 64)))).wellFormed = false := by decide
theorem test_wellFormed_operand_missing : (ScriptLine.command none .setstate none).wellFormed = false := by decide
theorem test_wellFormed_operand_not_taken :
    (ScriptLine.command none .next32 (some (.number 0))).wellFormed = false := by decide
theorem test_wellFormed_operand_no_name :
    (ScriptLine.command none .setstate (some (.result []))).wellFormed = false := by decide
theorem test_wellFormed_bound_zero : (Pseudo.bounded 0#32).wellFormed = false := by decide
theorem test_wellFormed_full_range : (Pseudo.ranged 0x80000000#32 0x7FFFFFFF#32).wellFormed = false := by decide

/-! ## Decoding, words written from 30_encoding.md R65 and R67 -/

theorem test_decode_next32 : decode ⟨0b00000001#8, 0#64⟩ = .ok .next32 := by decide
theorem test_decode_seed : decode ⟨0b00000010#8, 0x3039#64⟩ = .ok (.seed 12345#64) := by decide
theorem test_decode_getseed : decode ⟨0b00000011#8, 0#64⟩ = .ok .getseed := by decide
theorem test_decode_setstate :
    decode ⟨0b00000100#8, 0x0123456789ABCDEF#64⟩ = .ok (.setstate 0x0123456789ABCDEF#64) := by decide
theorem test_decode_getstate : decode ⟨0b00000101#8, 0#64⟩ = .ok .getstate := by decide
/-- V-ILL-4 and V-ILL-5: a reserved bit above a legal opcode. -/
theorem test_decode_reserved_bits : decode ⟨0b00001001#8, 0#64⟩ = .error (.illegalCommand 0x09#8) ∧
    decode ⟨0b10000010#8, 0#64⟩ = .error (.illegalCommand 0x82#8) := by decide
/-- V-ILL-6 and V-ILL-7. -/
theorem test_decode_all_wrong : decode ⟨0xF8#8, 0#64⟩ = .error (.illegalCommand 0xF8#8) ∧
    decode ⟨0xFF#8, 0#64⟩ = .error (.illegalCommand 0xFF#8) := by decide
theorem test_decodeTableWord : decodeTableWord 8 0x04 = some (.setstate 0#64) ∧
    decodeTableWord 72 0x303902 = some (.seed 0x3039#64) ∧ decodeTableWord 8 0x00 = none := by decide

/-! ## Small states -/

/-- The reset state with `c` at the pins of the coming edge. -/
def ready (c : Command) : State := { State.reset with inputs := [PortIn.present c] }

/-- The state after the step from `s`, or `s` where it stops. -/
def after (s : State) : State :=
  match step s with
  | .next t => t
  | .fault _ => s
  | .refused _ => s

/-- Registers with the increment of the reset state. -/
def regsAt (state : Word) : Registers := { Registers.reset with state := state }

/-- What a host sequence starts from, at `SEED 12345` (S12345 of 95_test_vectors.md section 3). -/
def host12345 : HostState := ⟨seedMixSeed 12345#64, [], []⟩

/-- What a host sequence starts from after reset (SRST). -/
def hostReset : HostState := ⟨Registers.reset, [], []⟩

/-- Host parameters for tests: the nearest binary64 to 2π, the nearest binary32 to 1e-5, and functions that give an
infinity or a NaN where the logarithm, the cosine and the square root do, and else a fixed value. -/
def params : Config.HostParams :=
  { TAU_F := 0x401921FB54442D18#64
    tauProductInBinary64 := true
    EPS_F := 0x3727C5AC#32
    HOST_LOG := fun x => if x = 0#32 then 0xFF800000#32 else 0xBF800000#32
    HOST_COS := fun x => if (x &&& 0x7F800000#32) = 0x7F800000#32 then 0x7FC00000#32 else 0x3F000000#32
    HOST_SQRT := fun x => if 0x80000000#32 < x then 0x7FC00000#32 else 0x3F800000#32
    nan32 := fun _ => 0#32
    nan64 := fun _ => 0#64 }

/-! ## The instructions, one step each -/

/-- V-N32-12 and P1. -/
theorem test_next32_first_draw : (after (ready ⟨0x01#8, 5#64⟩)).regs = regsAt 0x7A4AC4EE9068A09C#64 ∧
    (after (ready ⟨0x01#8, 5#64⟩)).inflight.map InFlight.rsp = some ⟨0xBC69701D#64, false⟩ := ⟨by decide, by decide⟩
/-- V-N32-2, V-N32-4, V-N32-9 and V-N32-11. -/
theorem test_next32_vectors : advanceOutput 0xFFFFFFFFFFFFFFFF#64 = 0xFFF00001#32 ∧
    advanceOutput 0x0800000000000000#64 = 0x00002000#32 ∧ advanceOutput 0x00000000F8000000#64 = 0x0000001F#32 ∧
    advanceOutput 0x0000200000000000#64 = 0x00040001#32 := by decide
/-- V-SEED-12345. -/
theorem test_seed_12345 : (after (ready ⟨0x02#8, 0x3039#64⟩)).regs =
    ⟨0x946BACC26B2C1A97#64, 0x280AF6FDEECF029F#64, 0x3039#64⟩ := by decide
/-- V-SEED-MAX: the addition wraps. -/
theorem test_seed_max : (seedMixSeed 0xFFFFFFFFFFFFFFFF#64).state = 0x3411DC230974DA65#64 := by decide
/-- V-GS-1. -/
theorem test_getseed_reset :
    (after (ready ⟨0x03#8, 0#64⟩)).inflight.map InFlight.rsp = some ⟨0xA7323897838D73DB#64, false⟩ := by decide
/-- V-GS-2. -/
theorem test_getseed_after_setstate :
    (getseedEffect (setstateEffect 0#64 (seedEffect 12345#64).2).2).1 = ⟨0x3039#64, false⟩ := by decide
/-- V-ST-1. -/
theorem test_setstate : (after (ready ⟨0x04#8, 0x0123456789ABCDEF#64⟩)).regs = regsAt 0x0123456789ABCDEF#64 := by
  decide
/-- V-ST-3. -/
theorem test_setstate_zero_then_next32 :
    next32Effect (setstateEffect 0#64 Registers.reset).2 = (⟨0#64, false⟩, regsAt 0x280AF6FDEECF029F#64) := by decide
/-- V-ST-2. -/
theorem test_getstate_reset :
    (after (ready ⟨0x05#8, 0#64⟩)).inflight.map InFlight.rsp = some ⟨0xA81D966E14D85C11#64, false⟩ := by decide
/-- P2, line 5: the illegal word 07. -/
theorem test_illegal_word : (after (ready ⟨0x07#8, 0x1234#64⟩)).regs = Registers.reset ∧
    (after (ready ⟨0x07#8, 0x1234#64⟩)).inflight.map InFlight.rsp = some ⟨0#64, true⟩ := ⟨by decide, by decide⟩
/-- Reset is what `SEED DEFAULT_SEED` leaves (70_reset_and_hazards.md R221). -/
theorem test_reset_is_default_seeded : seedMixSeed Config.DEFAULT_SEED = Registers.reset := by decide
/-- V-RST-2: a reset edge drops the command in flight. -/
theorem test_reset_drops_command :
    (after { after (ready ⟨0x02#8, 0x3039#64⟩) with inputs := [PortIn.reset] }).regs = Registers.reset ∧
    (after { after (ready ⟨0x02#8, 0x3039#64⟩) with inputs := [PortIn.reset] }).busy = false := ⟨by decide, by decide⟩
/-- The first step from reset on a table word runs its row. -/
theorem test_fetch_word : (after (State.reset.withFetchWord 8 0x01)).regs.state = 0x7A4AC4EE9068A09C#64 := by decide

/-! ## Host sequences and scripts -/

/-- V-B-6. -/
theorem test_bounded : (seqBounded 3 0x80000001#32 host12345).ending = .value 0x479989B0#32 ∧
    (seqBounded 3 0x80000001#32 host12345).host.regs.state = 0xFAAA92FFB63A39CC#64 := ⟨by decide, by decide⟩
/-- V-R-1 and V-R-5, negative ends. -/
theorem test_ranged : (seqRanged 1 (-5) 5 host12345).ending = .value 3#32 ∧
    (seqRanged 1 100 (-100) hostReset).ending = .value (-11) := ⟨by decide, by decide⟩
/-- V-F-1, V-F-2. -/
theorem test_nextf32 : (seqNextF32 hostReset).ending = .value 0x3F1F0893#32 ∧
    (seqNextF32 host12345).ending = .value 0x3E810BA3#32 := ⟨by decide, by decide⟩
/-- V-F32-ONE. -/
theorem test_nextf32_one : (seqNextF32 ⟨regsAt 0x5E4231E510087785#64, [], []⟩).ending = .value 0x3F800000#32 := by decide
/-- R49 with the third draw of P1 as the mantissa: requester 1 draws between the two draws of this host. -/
theorem test_nextf32_shared :
    (seqNextF32 { hostReset with others := [[], [(0, ⟨0x01#8, 0#64⟩)]] }).ending = .value 0x3F7672BF#32 := by decide
/-- V-FR-1 and V-FR-4. -/
theorem test_frange :
    (seqFrange params 0xBF800000#32 0x3F800000#32 hostReset).ending = .value (widen64 params 0x3E784498#32) ∧
    (seqFrange params 0x40000000#32 0x41200000#32 host12345).ending = .value (widen64 params 0x408085D2#32) :=
  ⟨by decide, by decide⟩
/-- 1.0, and the least subnormal, widened. -/
theorem test_widen : widen64 params 0x3F800000#32 = 0x3FF0000000000000#64 ∧
    widen64 params 0x00000001#32 = 0x36A0000000000000#64 := by decide
/-- V-N-1. -/
theorem test_normal : (seqNormal params 0x40600000#32 0#32 host12345).ending = .value 0x400C000000000000#64 := by decide
/-- V-RZ-1. -/
theorem test_randomize : (seqRandomize 1700000000#64 hostReset).host.regs =
    ⟨0x580CCB278B1F7275#64, 0x280AF6FDEECF029F#64, 0x228D3B973496824F#64⟩ := by decide
/-- The example of 30_encoding.md R69, and its result naming. -/
theorem test_script_lines :
    parseLine ['S', 'E', 'E', 'D', ' ', '1', '2', '3', '4', '5'] = some (.command none .seed (some (.number 12345))) ∧
    parseLine ['r', ' ', '=', ' ', 'N', 'E', 'X', 'T', '3', '2'] = some (.command (some ['r']) .next32 none) :=
  ⟨by decide, by decide⟩
theorem test_script_refused : parseLine ['S', 'E', 'E', 'D'] = none ∧
    parseLine ['N', 'E', 'X', 'T', '3', '2', ' ', '1'] = none := ⟨by decide, by decide⟩
/-- P2, the checkpoint: the named result is the operand of SETSTATE. -/
theorem test_script_checkpoint : (runScript [.command (some ['s']) .getstate none, .command none .next32 none,
    .command none .setstate (some (.result ['s']))] [] Registers.reset).map Prod.snd = some Registers.reset := by decide

/-! ## Witnesses: the hypotheses of the obligations can be met -/

theorem accepts_ready (c : Command) : Accepts (ready c) c := ⟨rfl, rfl, rfl, rfl, rfl, rfl⟩

theorem no_reset_after_ready (c : Command) (k : Nat) : (sample (ready c) k).rst = false := by
  cases k <;> rfl

theorem witness_IllegalWordsAreTheOther251 :
    (∃ e, decode ⟨0x07#8, 0x1234#64⟩ = .error e) ∧ Accepts (ready ⟨0x07#8, 0x1234#64⟩) ⟨0x07#8, 0x1234#64⟩ :=
  ⟨⟨.illegalCommand 0x07#8, by decide⟩, accepts_ready _⟩

theorem witness_DecodeEncodeAgree : (Instr.seed 1#64).wellFormed = true ∧ decode ⟨0x02#8, 1#64⟩ = .ok (.seed 1#64) ∧
    ∃ d, Instr.seed 1#64 = .seed d ∨ Instr.seed 1#64 = .setstate d := ⟨rfl, by decide, 1#64, .inl rfl⟩

theorem witness_StepRunsDecodedInstruction :
    Accepts (ready ⟨0x05#8, 0#64⟩) ⟨0x05#8, 0#64⟩ ∧ decode ⟨0x05#8, 0#64⟩ = .ok .getstate :=
  ⟨accepts_ready _, by decide⟩

theorem witness_FetchedWordRunsItsInstruction : (Instr.setstate 0xFFFFFFFFFFFFFFFF#64).wellFormed = true := rfl

theorem witness_LcgStepIsExactModulo : (3#64 : Word).getLsbD 0 = true := by decide

theorem witness_MixerBitByBit : (18 ≤ 18 ∧ 19 ≤ 19 ∧ 31 ≤ 31) ∧ (0#64 : Word) >>> 27 = 0x7FFFFFF#64 >>> 27 := by decide

theorem witness_BarrelShifterRotates : 31 ≤ 31 := Nat.le_refl _

theorem witness_OutputDependsOnOldStateAlone :
    ((⟨5#64, 1#64, 0#64⟩ : Registers).state = (⟨5#64, 3#64, 0#64⟩ : Registers).state) ∧
    ((0x7FFFFFF#64 : Word).extractLsb' 27 32 = 0#32 ∧ (0x7FFFFFF#64 : Word).extractLsb' 45 19 = 0#19) ∧
    (⟨5#64, 1#64, 0#64⟩ : Registers).inc = (⟨5#64, 1#64, 9#64⟩ : Registers).inc := by decide

theorem witness_LcgStepIsInjective : ∃ inc a b : Word, lcgNext a inc = lcgNext b inc := ⟨3#64, 4#64, 4#64, rfl⟩

theorem witness_Next32Result :
    (regsAt 0#64).state = 0#64 ∧ (regsAt 0#64).inc.getLsbD 0 = true ∧ (regsAt 0#64).inc = Registers.reset.inc ∧
    (regsAt 0x0123456789ABCDEF#64).state.extractLsb' 59 5 = 0#5 ∧
    (regsAt 0xFEDCBA9876543210#64).state.extractLsb' 59 5 = 31#5 ∧
    (regsAt 0xFFFFFFFFFFFFFFFF#64).state = 0xFFFFFFFFFFFFFFFF#64 := by decide

theorem witness_SeedResult : ∃ t, exec (.seed 7#64) State.reset = .next t := ⟨_, rfl⟩

theorem witness_GetseedResult : ∀ c ∈ [Command.mk 0x01#8 0#64, ⟨0x04#8, 9#64⟩],
    decode c = .ok .next32 ∨ ∃ v, decode c = .ok (.setstate v) := by
  intro c hc
  simp only [List.mem_cons, List.not_mem_nil, or_false] at hc
  rcases hc with rfl | rfl
  · exact .inl (by decide)
  · exact .inr ⟨9#64, by decide⟩

theorem witness_SetstateResult : (regsAt 0#64).inc = 0x280AF6FDEECF029F#64 := by decide

theorem witness_IdempotencyOfCommands : (⟨5#64, 1#64, 0#64⟩ : Registers).state = (⟨5#64, 1#64, 2#64⟩ : Registers).state ∧
    (⟨5#64, 1#64, 0#64⟩ : Registers).inc = (⟨5#64, 1#64, 2#64⟩ : Registers).inc := by decide

theorem witness_CheckpointRestoreRepeatsDraws :
    (registersAfter [⟨0x01#8, 0#64⟩, ⟨0x02#8, 3#64⟩] Registers.reset).inc = Registers.reset.inc ∧
    Registers.reset.inc = Config.INC_SEEDED := by decide

theorem witness_SeedRegisterIsOnlyRetrieved : (∀ c ∈ [Command.mk 0x01#8 0#64], decode c ≠ .ok .getseed) ∧
    (⟨5#64, 1#64, 0#64⟩ : Registers).state = (⟨5#64, 1#64, 2#64⟩ : Registers).state ∧
    (⟨5#64, 1#64, 0#64⟩ : Registers).inc = (⟨5#64, 1#64, 2#64⟩ : Registers).inc := by decide

/-- A SEED from registers whose `INC` and `SEED` are not the seeded ones changes all three. -/
theorem witness_OnlyNamedCommandsWriteRegisters :
    ∃ s t, step s = .next t ∧ s.pinsIn.rst = false ∧ t.regs.state ≠ s.regs.state ∧ t.regs.inc ≠ s.regs.inc ∧
      t.regs.seed ≠ s.regs.seed :=
  ⟨{ ready ⟨0x02#8, 3#64⟩ with regs := ⟨0#64, 1#64, 2#64⟩ }, _, rfl, rfl, by decide, by decide, by decide⟩

theorem witness_InstructionFrames : (∃ t, exec .getseed State.reset = .next t) ∧ ∀ d, Instr.getseed ≠ .seed d :=
  ⟨⟨_, rfl⟩, fun _ => by simp⟩

theorem witness_IllegalCommandResponse : Accepts (ready ⟨0xF8#8, 1#64⟩) ⟨0xF8#8, 1#64⟩ ∧
    (0xF8#8 : OpByte).extractLsb' 3 5 ≠ 0#5 ∧ (0xF8#8 : OpByte).extractLsb' 0 3 = 0#3 ∧
    (0x06#8 : OpByte).extractLsb' 0 3 = 6#3 ∧ (0x07#8 : OpByte).extractLsb' 0 3 = 7#3 ∧
    (∀ k, 1 ≤ k → k ≤ Config.LAT_ILLEGAL → (sample (ready ⟨0xF8#8, 1#64⟩) k).rst = false) :=
  ⟨accepts_ready _, by decide, by decide, by decide, by decide, fun k _ _ => no_reset_after_ready _ k⟩

theorem witness_ResponseComesExactlyAfterLatency : Accepts (ready ⟨0x01#8, 0#64⟩) ⟨0x01#8, 0#64⟩ ∧
    (∀ k, 1 ≤ k → k ≤ commandLatency ⟨0x01#8, 0#64⟩ → (sample (ready ⟨0x01#8, 0#64⟩) k).rst = false) ∧
    1 ≤ commandLatency ⟨0x01#8, 0#64⟩ :=
  ⟨accepts_ready _, fun k _ _ => no_reset_after_ready _ k, commandLatency_pos _⟩

theorem witness_CommandPinsIgnoredWhileBusy :
    (after (ready ⟨0x01#8, 0#64⟩)).busy = true ∧ (after (ready ⟨0x01#8, 0#64⟩)).pinsIn.rst = false := ⟨by decide, by decide⟩

theorem witness_ReadyAndOutputsInReset :
    State.pinsIn { State.reset with inputs := [PortIn.reset] } = PortIn.reset := rfl

theorem witness_IdleBlockHoldsItsRegisters : State.reset.busy = false ∧ State.reset.resetCutShort = false ∧
    ∀ k, k < 3 + 1 → (sample State.reset k).rst = false ∧ (sample State.reset k).cmdValid = false :=
  ⟨rfl, rfl, fun _ _ => ⟨rfl, rfl⟩⟩

theorem witness_DrivenPortRefinesTransactions :
    ∃ s : State, s.busy = false ∧ s.resetCutShort = false ∧
      s.inputs = driveAll [⟨0x02#8, 7#64⟩, ⟨0x01#8, 0#64⟩] ++ [] ∧ (([] : List PortIn).headD PortIn.idle).rst = false :=
  ⟨{ State.reset with inputs := driveAll [⟨0x02#8, 7#64⟩, ⟨0x01#8, 0#64⟩] ++ [] }, rfl, rfl, rfl, rfl⟩

theorem witness_EveryRunServesAcceptedCommandsInOrder : (ready ⟨0x02#8, 7#64⟩).busy = false ∧
    (∀ k, k < 1 + 1 → (sample (ready ⟨0x02#8, 7#64⟩) k).rst = false) ∧ ∃ t, runEdges 1 (ready ⟨0x02#8, 7#64⟩) = .next t :=
  ⟨rfl, fun k _ => no_reset_after_ready _ k, _, rfl⟩

theorem witness_RegistersFollowCommandsSinceReset :
    registersAfter [⟨0x01#8, 0#64⟩] (regsAt 5#64) = { regsAt 5#64 with state := lcgNext 5#64 Registers.reset.inc } ∧
    ∃ s t, s.regs = registersAfter [⟨0x01#8, 0#64⟩] (regsAt 5#64) ∧ runEdges 1 s = .next t :=
  ⟨by decide, { ready ⟨0x05#8, 0#64⟩ with regs := registersAfter [⟨0x01#8, 0#64⟩] (regsAt 5#64) }, _, rfl, rfl⟩

theorem witness_ResetLeavesDefaultSeededBlock : ∃ s : State, Config.RESET_CYCLES ≤ Config.RESET_CYCLES ∧
    ∀ k, k < Config.RESET_CYCLES → (sample s k).rst = true :=
  ⟨{ State.reset with inputs := List.replicate Config.RESET_CYCLES PortIn.reset }, Nat.le_refl _, fun k hk => by
    simp [sample, hk, PortIn.reset]⟩

theorem witness_ResetComesFirst :
    (State.pinsIn { after (ready ⟨0x02#8, 7#64⟩) with inputs := [PortIn.reset] }).rst = true := rfl

theorem witness_StepKeepsInvariant :
    Safety.Inv (ready ⟨0x02#8, 7#64⟩) ∧ ∃ t, step (ready ⟨0x02#8, 7#64⟩) = .next t :=
  ⟨⟨by decide, by decide, by simp [ready, State.reset], by simp [ready, State.reset], by simp [ready, State.reset],
    by simp [ready, State.reset], by simp [ready, State.reset]⟩, _, rfl⟩

theorem witness_SafeRunsAcceptOnlyLegalCommands : Safety.safeFor 1 (ready ⟨0x02#8, 7#64⟩) = true := by decide

/-- Requester 0 draws, requester 1 reads the state in between. -/
theorem witness_ReadersDoNotDisturbOtherRequesters :
    ∃ (streams : Nat → List Command) (zs : List (Nat × Command)), IsInterleaving streams zs ∧ streams 1 ≠ [] ∧
      ∀ k, k ≠ 0 → ∀ c ∈ streams k, readsOnly c = true := by
  refine ⟨fun j => requesterCommands j [(0, ⟨0x01#8, 0#64⟩), (1, ⟨0x05#8, 0#64⟩)], _, fun _ => rfl, by decide, ?_⟩
  intro k hk c hc
  have hne : (0 == k) = false := beq_eq_false_iff_ne.mpr hk.symm
  by_cases h1 : k = 1
  · subst h1
    have : c = ⟨0x05#8, 0#64⟩ := by simpa [requesterCommands] using hc
    subst this; decide
  · have hne1 : (1 == k) = false := beq_eq_false_iff_ne.mpr (Ne.symm h1)
    simp [requesterCommands, List.filter, hne, hne1] at hc

theorem witness_InstancesShareNothing :
    ((0 : Nat) ≠ 1 ∧ [State.reset, State.reset][0]? = some State.reset ∧ ∃ t, step State.reset = .next t) ∧
    ∃ (s : State) (cs : List Command), s.inputs = List.replicate Config.RESET_CYCLES PortIn.reset ++ driveAll cs ∧
      cs ≠ [] :=
  ⟨⟨by decide, rfl, _, rfl⟩,
    { State.reset with
      inputs := List.replicate Config.RESET_CYCLES PortIn.reset ++ driveAll [⟨0x01#8, 0#64⟩, ⟨0x05#8, 0#64⟩] },
    [⟨0x01#8, 0#64⟩, ⟨0x05#8, 0#64⟩], rfl, by simp⟩

theorem witness_BoundThresholdIsPowerRemainder : (1#32 : BitVec 32) ≠ 0#32 ∧ (0xFFFFFFFF#32 : BitVec 32) ≠ 0#32 ∧
    boundThreshold 0x80000001#32 = 0x7FFFFFFF#32 := by decide

theorem witness_BoundedReturnsFirstAcceptedDraw : (0x80000001#32 : BitVec 32) ≠ 0#32 ∧ host12345.others = [] := by decide

theorem witness_HostFaultsIssueNoCommand : rangeSpan 0x80000000#32 0x7FFFFFFF#32 = 0#32 := by decide

theorem witness_RangedLiesBetweenItsEnds : (-5 : BitVec 32) ≠ 5 ∧ (seqRanged 1 (-5) 5 hostReset).ending = .value 1#32 ∧
    (seqBounded 1 (rangeSpan (-5) 5) hostReset).ending = .value 6#32 := ⟨by decide, by decide, by decide⟩

theorem witness_NextF32Range : drawSeen 0 ⟨regsAt 0#64, [], []⟩ = 0#32 ∧ drawSeen 0 hostReset ≠ 0#32 ∧
    hostReset.others = [] ∧ (regsAt 0x5E4231E510087785#64).inc = Registers.reset.inc := by decide

theorem witness_RoundingIsExactOnBinary32 : NotNaN 0x7F800000#32 ∧ NotNaN 0x80000001#32 := by
  constructor <;> (unfold NotNaN; decide)

theorem witness_FrangeOfEqualEnds : Finite32 0x80000000#32 ∧ Finite32 0x7F7FFFFF#32 :=
  ⟨⟨true, 0, -149, by decide⟩, false, 2 ^ 24 - 1, 104, by decide⟩

theorem datum_half : datum32 0x3F000000#32 = .finite false (2 ^ 23) (-24) := by decide

theorem datum_one : datum32 0x3F800000#32 = .finite false (2 ^ 23) (-23) := by decide

/-- The uniforms of V-F-2 and of the draws after it, with parameters that are not finite everywhere. -/
theorem witness_NormalOfZeroDeviation : ∃ u1 u2 h1 h2, NotNaN 0x40600000#32 ∧ IsZero32 0x80000000#32 ∧
    seqNextF32 host12345 = ⟨.value u1, h1⟩ ∧ seqNextF32 h1 = ⟨.value u2, h2⟩ ∧
    Finite32 (params.HOST_COS (tauTimes params u2)) ∧
    Finite32 (params.HOST_SQRT (mulF32 params minusTwo (params.HOST_LOG (clampUniform params u1)))) :=
  ⟨_, _, _, _, by unfold NotNaN; decide, .inr rfl, rfl, rfl, ⟨false, 2 ^ 23, -24, by decide⟩,
    ⟨false, 2 ^ 23, -23, by decide⟩⟩

theorem witness_RandomizeReseeds : hostReset.others = [] := rfl

/-- V-F-0 and V-F32-ONE: both values that the clauses speak of are reached. -/
theorem witness_NextF64WidensNextF32 : (seqNextF32 ⟨regsAt 0#64, [], []⟩).ending = .value 0#32 ∧
    (seqNextF32 ⟨regsAt 0x5E4231E510087785#64, [], []⟩).ending = .value 0x3F800000#32 := ⟨by decide, test_nextf32_one⟩

theorem witness_HostSequenceDrawCounts : (1#32 : BitVec 32) ≠ 2#32 ∧ rangeSpan 1#32 2#32 ≠ 0#32 := by decide

theorem witness_HostSequencesAreCommandStreams :
    (Pseudo.ranged 0x80000000#32 0x7FFFFFFE#32).wellFormed = true ∧ hostReset.others = [] := by decide

/-- The host after reset, with requester 1 reading the state before the host's second command. -/
def hostWithReader : HostState := { hostReset with others := [[], [(0, ⟨0x05#8, 0#64⟩)]] }

theorem witness_ReadersDoNotDisturbHostSequences : hostWithReader.others ≠ [] ∧
    ∀ zs ∈ hostWithReader.others, ∀ z ∈ zs, readsOnly z.2 = true := by decide

theorem witness_DrawInBetweenShiftsNextF32 : advanceOutput Registers.reset.state ≠ 0#32 := by decide

end Sys2Proof.Tests
end

/-! SUPPORT. The family of 10_state.md: what one instruction, one command and one edge do to the three registers, the
invariant of Safety.lean kept by every edge, and the obligations settled from these. -/

namespace Sys2Proof.Machine

/-! ## What an instruction writes -/

/-- `STATE` is written by NEXT32, SEED and SETSTATE alone (10_state.md R21). -/
theorem instrEffect_state_changed {i : Instr} {r : Registers} (h : (instrEffect i r).2.state ≠ r.state) :
    i = .next32 ∨ (∃ d, i = .seed d) ∨ ∃ d, i = .setstate d := by
  cases i with
  | next32 => exact .inl rfl
  | seed d => exact .inr (.inl ⟨d, rfl⟩)
  | setstate d => exact .inr (.inr ⟨d, rfl⟩)
  | getseed | getstate => exact absurd rfl h

/-- `INC` is written by SEED alone, with `INC_SEEDED` (R22). -/
theorem instrEffect_inc_changed {i : Instr} {r : Registers} (h : (instrEffect i r).2.inc ≠ r.inc) :
    ∃ d, i = .seed d ∧ (instrEffect i r).2.inc = Config.INC_SEEDED := by
  cases i with
  | seed d => exact ⟨d, rfl, by simp [instrEffect, seedEffect, seedMixSeed_eq]⟩
  | next32 | getseed | setstate | getstate => exact absurd rfl h

/-- `SEED` is written by SEED alone, with its operand (R24). -/
theorem instrEffect_seed_changed {i : Instr} {r : Registers} (h : (instrEffect i r).2.seed ≠ r.seed) :
    ∃ d, i = .seed d ∧ (instrEffect i r).2.seed = d := by
  cases i with
  | seed d => exact ⟨d, rfl, by simp [instrEffect, seedEffect, seedMixSeed_eq]⟩
  | next32 | getseed | setstate | getstate => exact absurd rfl h

/-! ## A command as a transaction -/

theorem transact_ok {c : Command} {i : Instr} (h : decode c = .ok i) (r : Registers) :
    transact c r = instrEffect i r := by simp only [transact, h]

theorem transact_error {c : Command} {e : DecodeError} (h : decode c = .error e) (r : Registers) :
    transact c r = (errorResponse, r) := by simp only [transact, h]

/-- A command keeps `INC` or sets it to `INC_SEEDED`. -/
theorem transact_inc (c : Command) (r : Registers) :
    (transact c r).2.inc = r.inc ∨ (transact c r).2.inc = Config.INC_SEEDED := by
  cases h : decode c with
  | ok i => rw [transact_ok h]; exact instrEffect_inc i r
  | error e => rw [transact_error h]; exact .inl rfl

/-- A response with the error bit is the error response. -/
theorem transact_err {c : Command} {r : Registers} (he : (transact c r).1.err = true) :
    (transact c r).1 = errorResponse := by
  cases h : decode c with
  | ok i => simp [transact_ok h] at he
  | error e => rw [transact_error h]

/-! ## Registers that agree but for `SEED` -/

/-- Equal `STATE` and equal `INC`: what everything but GETSEED depends on (R24). -/
def Registers.AgreeOffSeed (r q : Registers) : Prop := r.state = q.state ∧ r.inc = q.inc

theorem instrEffect_agreeOffSeed {i : Instr} (hi : i ≠ .getseed) {r q : Registers} (h : r.AgreeOffSeed q) :
    (instrEffect i r).1 = (instrEffect i q).1 ∧ (instrEffect i r).2.AgreeOffSeed (instrEffect i q).2 := by
  obtain ⟨hs, hinc⟩ := h
  cases i with
  | next32 => simp [instrEffect, next32Effect, Registers.AgreeOffSeed, hs, hinc]
  | seed d => exact ⟨rfl, rfl, rfl⟩
  | getseed => exact absurd rfl hi
  | setstate d => exact ⟨rfl, rfl, hinc⟩
  | getstate => exact ⟨congrArg (fun w => okResponse (registerResponseData w)) hs, hs, hinc⟩

theorem transact_agreeOffSeed {c : Command} (hc : decode c ≠ .ok .getseed) {r q : Registers}
    (h : r.AgreeOffSeed q) :
    (transact c r).1 = (transact c q).1 ∧ (transact c r).2.AgreeOffSeed (transact c q).2 := by
  cases hd : decode c with
  | ok i =>
    have hi : i ≠ .getseed := by rintro rfl; exact hc hd
    simpa only [transact_ok hd] using instrEffect_agreeOffSeed hi h
  | error e => simpa [transact_error hd] using h

/-- A stream without GETSEED cannot tell two values of `SEED` apart. -/
theorem stream_agreeOffSeed {cs : List Command} (hcs : ∀ c ∈ cs, decode c ≠ .ok .getseed) {r q : Registers}
    (h : r.AgreeOffSeed q) :
    responsesTo cs r = responsesTo cs q ∧ (registersAfter cs r).AgreeOffSeed (registersAfter cs q) := by
  induction cs generalizing r q with
  | nil => exact ⟨rfl, h⟩
  | cons c cs ih =>
    obtain ⟨hc, hcs⟩ := List.forall_mem_cons.mp hcs
    obtain ⟨hrsp, hregs⟩ := transact_agreeOffSeed hc h
    obtain ⟨hrsps, hafter⟩ := ih hcs hregs
    exact ⟨congrArg₂ List.cons hrsp hrsps, hafter⟩

/-! ## Which edges write registers -/

theorem busy_eq_false_iff {s : State} : s.busy = false ↔ s.inflight = none := by simp [State.busy]

/-- The event of an edge is a command exactly where the port accepts it (30_encoding.md R61). -/
theorem event_command_iff_accepts {s : State} {c : Command} : s.event = .command c ↔ Claims.Accepts s c := by
  constructor
  · intro he
    have hspec := event_spec s
    rw [he] at hspec
    obtain ⟨hrst, hcut, hidle, hvalid, rfl⟩ := hspec
    exact ⟨hrst, hvalid, rfl, rfl, busy_eq_false_iff.mpr hidle, hcut⟩
  · obtain ⟨op, data⟩ := c
    rintro ⟨hrst, hvalid, rfl, rfl, hbusy, hcut⟩
    exact event_command hrst hcut (busy_eq_false_iff.mp hbusy) hvalid

/-- Outside reset the registers change only at an edge that accepts a legal command, and then as its instruction
says. -/
theorem step_regs {s t : State} (h : step s = .next t) (hrst : s.pinsIn.rst = false) :
    t.regs = s.regs ∨
      ∃ c i, Claims.Accepts s c ∧ decode c = .ok i ∧ t.regs = (instrEffect i s.regs).2 := by
  obtain ⟨he, rfl⟩ | ⟨f, he, rfl⟩ | ⟨c, g, he, rfl, -⟩ | ⟨he, rfl⟩ := step_cases h
  · have hspec := event_spec s
    simp [he, hrst] at hspec
  · exact .inl (progress_regs s f)
  · cases hd : decode c with
    | ok i => exact .inr ⟨c, i, event_command_iff_accepts.mp he, hd, by simp [transact_ok hd]⟩
    | error e => exact .inl (by simp [transact_error hd])
  · exact .inl rfl

end Sys2Proof.Machine

namespace Sys2Proof.Safety

open Sys2Proof.Machine

/-! ## Every edge keeps the invariant -/

theorem inv_resetEdge (s : State) : Inv s.resetEdge where
  inc_seeded := inc_seeded_value.symm
  response_only_when_idle := by simp
  presented_error_is_empty := by simp
  inflight_error_is_empty := by simp
  inflight_has_cycles := by simp
  seed_first_stage := by simp
  held_in_reset := fun _ => ⟨rfl, rfl, rfl⟩

theorem Inv.clocked {s : State} (hi : Inv s) : Inv s.clocked where
  inc_seeded := hi.inc_seeded
  response_only_when_idle := by simp
  presented_error_is_empty := by simp
  inflight_error_is_empty := hi.inflight_error_is_empty
  inflight_has_cycles := hi.inflight_has_cycles
  seed_first_stage := hi.seed_first_stage
  held_in_reset := by simp

/-- The last cycle of a command in flight: its response, which met the clause on error responses while in flight, is
presented. -/
theorem Inv.progress_last {s : State} {f : InFlight} (hi : Inv s) (hf : s.inflight = some f) (hleft : f.left ≤ 1) :
    Inv (s.progress f) := by
  rw [Machine.progress_last s hleft]
  exact {
    inc_seeded := hi.inc_seeded
    response_only_when_idle := fun _ => rfl
    presented_error_is_empty := by
      rintro r ⟨⟩ herr
      exact hi.inflight_error_is_empty f hf herr
    inflight_error_is_empty := by simp
    inflight_has_cycles := by simp
    seed_first_stage := by simp
    held_in_reset := by simp }

/-- An earlier cycle: only the count of cycles left goes down, and it was above 1. -/
theorem Inv.progress_more {s : State} {f : InFlight} (hi : Inv s) (hf : s.inflight = some f) (hleft : 1 < f.left) :
    Inv (s.progress f) := by
  rw [Machine.progress_more s hleft]
  exact {
    inc_seeded := hi.inc_seeded
    response_only_when_idle := by simp
    presented_error_is_empty := by simp
    inflight_error_is_empty := by
      rintro f' ⟨⟩ herr
      exact hi.inflight_error_is_empty f hf herr
    inflight_has_cycles := by
      rintro f' ⟨⟩
      exact Nat.le_sub_one_of_lt hleft
    seed_first_stage := by
      rintro f' g ⟨⟩ hg
      exact hi.seed_first_stage f g hf hg
    held_in_reset := by simp }

theorem Inv.progress {s : State} {f : InFlight} (hi : Inv s) (hf : s.inflight = some f) : Inv (s.progress f) :=
  (Nat.lt_or_ge 1 f.left).elim (hi.progress_more hf) (hi.progress_last hf)

/-- Accepting a command, legal or not, after the response of the cycle before is gone. -/
theorem Inv.accept {s : State} (hi : Inv s) (c : Command) {g : Option SeedStages}
    (hg : ∀ g', g = some g' → g'.afterFirstAdvance = Config.INC_SEEDED) :
    Inv (s.clocked.respond (transact c s.regs).2 (transact c s.regs).1 (commandLatency c) g) where
  inc_seeded := (transact_inc c s.regs).elim (·.trans hi.inc_seeded) id
  response_only_when_idle := by simp
  presented_error_is_empty := by simp
  inflight_error_is_empty := by
    rintro f ⟨⟩ herr
    exact transact_err herr
  inflight_has_cycles := by
    rintro f ⟨⟩
    exact commandLatency_pos c
  seed_first_stage := by
    rintro f g' ⟨⟩ hg'
    exact hg g' hg'
  held_in_reset := by simp

theorem Inv.step {s t : State} (hi : Inv s) (h : step s = .next t) : Inv t := by
  obtain ⟨-, rfl⟩ | ⟨f, he, rfl⟩ | ⟨c, g, -, rfl, hg⟩ | ⟨-, rfl⟩ := step_cases h
  · exact inv_resetEdge s
  · have hspec := event_spec s
    rw [he] at hspec
    obtain ⟨-, -, hf⟩ := hspec
    exact hi.progress hf
  · exact hi.accept c hg
  · exact hi.clocked

theorem inv_reset : Inv State.reset where
  inc_seeded := inc_seeded_value.symm
  response_only_when_idle := fun _ => rfl
  presented_error_is_empty := by simp [State.reset]
  inflight_error_is_empty := by simp [State.reset]
  inflight_has_cycles := by simp [State.reset]
  seed_first_stage := by simp [State.reset]
  held_in_reset := by simp [State.reset]

end Sys2Proof.Safety

namespace Sys2Proof.Claims

open Sys2Proof.Machine

/-- Settles O38: each of the four edges that answer keeps every clause. -/
theorem stepKeepsInvariant : Obligations.StepKeepsInvariant :=
  fun _ _ hi h => hi.step h

/-- Settles O22, by induction on the stream: registers that agree but for `SEED` stay so. -/
theorem seedRegisterIsOnlyRetrieved : Obligations.SeedRegisterIsOnlyRetrieved :=
  fun _ _ _ hcs hstate hinc => stream_agreeOffSeed hcs ⟨hstate, hinc⟩

/-- Settles O23: a register that changed was written by the instruction accepted at the edge. -/
theorem onlyNamedCommandsWriteRegisters : Obligations.OnlyNamedCommandsWriteRegisters := by
  intro s t h hrst
  obtain hkept | ⟨c, i, hacc, hdec, hregs⟩ := step_regs h hrst
  · simp [hkept]
  · rw [hregs]
    refine ⟨fun hstate => ⟨c, hacc, ?_⟩, fun hinc => ?_, fun hseed => ?_⟩
    · obtain rfl | ⟨d, rfl⟩ | ⟨d, rfl⟩ := instrEffect_state_changed hstate
      · exact .inl hdec
      · exact .inr (.inl ⟨d, hdec⟩)
      · exact .inr (.inr ⟨d, hdec⟩)
    · obtain ⟨d, rfl, hval⟩ := instrEffect_inc_changed hinc
      exact ⟨c, d, hacc, hdec, hval⟩
    · obtain ⟨d, rfl, hval⟩ := instrEffect_seed_changed hseed
      exact ⟨c, d, hacc, hdec, hval⟩

/-- Settles O36: the literals are those of R31, and the two advances of SEED `DEFAULT_SEED` compute them (R221). -/
theorem resetStateValues : Obligations.ResetStateValues := by
  refine ⟨rfl, rfl, rfl, rfl, rfl, rfl, rfl, rfl, ?_⟩
  simp only [seedEffect, seedMixSeed_eq]
  decide

/-- Settles O39: after reset nothing is in flight or presented, and `INC` is `INC_SEEDED`. -/
theorem resetHasInvariant : Obligations.ResetHasInvariant := Safety.inv_reset

end Sys2Proof.Claims

/-! SUPPORT. The family of 20_memory.md: streams of commands and what readers leave of them, the record of a run,
and host sequences on a block that other requesters share; the obligations are settled from these. -/

namespace Sys2Proof.Machine

/-! ## Streams of commands (20_memory.md R47) -/

theorem registersAfter_append (cs ds : List Command) (r : Registers) :
    registersAfter (cs ++ ds) r = registersAfter ds (registersAfter cs r) := by
  induction cs generalizing r with
  | nil => rfl
  | cons c cs ih => exact ih (transact c r).2

theorem responsesTo_append (cs ds : List Command) (r : Registers) :
    responsesTo (cs ++ ds) r = responsesTo cs r ++ responsesTo ds (registersAfter cs r) := by
  induction cs generalizing r with
  | nil => rfl
  | cons c cs ih => exact congrArg (List.cons (transact c r).1) (ih (transact c r).2)

/-- A reading command leaves the registers as they are (R44). -/
theorem transact_regs_of_readsOnly {c : Command} (hc : readsOnly c = true) (r : Registers) :
    (transact c r).2 = r := by
  cases hd : decode c with
  | ok i =>
    rw [transact_ok hd]
    cases i with
    | getseed | getstate => rfl
    | next32 | seed | setstate => simp [readsOnly, hd] at hc
  | error e => rw [transact_error hd]

/-! ## The record of a run -/

/-- A run of `n + 1` edges that answers begins with a step that answers. -/
theorem runEdges_succ {n : Nat} {s u : State} (h : runEdges (n + 1) s = .next u) :
    ∃ t, step s = .next t ∧ runEdges n t = .next u := by
  unfold runEdges at h
  split at h
  next t ht => exact ⟨t, ht, h⟩
  next => cases h
  next => cases h

theorem responsesSeen_succ {s t : State} (h : step s = .next t) (n : Nat) :
    responsesSeen (n + 1) s = t.presented.toList ++ responsesSeen n t := by simp only [responsesSeen, h]

theorem serviceRecord_succ {s t : State} (h : step s = .next t) (n : Nat) (b : ServiceRecord) :
    serviceRecord (n + 1) b s = serviceRecord n (b.next s) t := by simp only [serviceRecord, h]

/-- The registers that a record gives: its accepted commands, applied to its base. -/
def ServiceRecord.regs (b : ServiceRecord) : Registers := registersAfter b.accepted b.base

section Next
variable {s : State} {c : Command} {f : InFlight} (b : ServiceRecord)

theorem next_of_reset (h : s.event = .reset) : b.next s = ⟨Registers.reset, []⟩ := by
  simp only [ServiceRecord.next, h]

theorem next_of_busy (h : s.event = .busy f) : b.next s = b := by simp only [ServiceRecord.next, h]

theorem next_of_command (h : s.event = .command c) : b.next s = ⟨b.base, b.accepted ++ [c]⟩ := by
  simp only [ServiceRecord.next, h]

theorem next_of_idle (h : s.event = .idle) : b.next s = b := by simp only [ServiceRecord.next, h]

end Next

/-- One edge: the record goes on giving the registers. -/
theorem next_regs {b : ServiceRecord} {s t : State} (hb : b.regs = s.regs) (h : step s = .next t) :
    (b.next s).regs = t.regs := by
  obtain ⟨he, rfl⟩ | ⟨f, he, rfl⟩ | ⟨c, g, he, rfl, -⟩ | ⟨he, rfl⟩ := step_cases h
  · rw [next_of_reset b he]; rfl
  · rw [next_of_busy b he, progress_regs, hb]
  · rw [next_of_command b he, respond_regs, ← hb]
    exact registersAfter_append b.accepted [c] b.base
  · rw [next_of_idle b he, clocked_regs, hb]

/-- Any number of edges, resets among them. -/
theorem serviceRecord_regs {n : Nat} {b : ServiceRecord} {s t : State} (hb : b.regs = s.regs)
    (h : runEdges n s = .next t) : (serviceRecord n b s).regs = t.regs := by
  induction n generalizing b s with
  | zero => cases h; exact hb
  | succ n ih =>
    obtain ⟨u, hu, hrun⟩ := runEdges_succ h
    rw [serviceRecord_succ hu]
    exact ih (next_regs hb hu) hrun

/-! ## The pins at the coming edges -/

theorem sample_zero (s : State) : Claims.sample s 0 = s.pinsIn := by
  cases h : s.inputs <;> simp [Claims.sample, State.pinsIn, h]

theorem step_inputs {s t : State} (h : step s = .next t) : t.inputs = s.inputs.tail := by
  obtain ⟨-, rfl⟩ | ⟨f, -, rfl⟩ | ⟨c, g, -, rfl, -⟩ | ⟨-, rfl⟩ := step_cases h
  · rfl
  · exact progress_inputs s f
  · rfl
  · rfl

theorem sample_step {s t : State} (h : step s = .next t) (k : Nat) :
    Claims.sample t k = Claims.sample s (k + 1) := by
  simp [Claims.sample, step_inputs h, List.getD_eq_getElem?_getD]

/-! ## A run without reset answers what it accepts -/

/-- The response that the command in flight, if any, will get. -/
def State.pending (s : State) : List Response := (s.inflight.map InFlight.rsp).toList

/-- The record of a run without reset, from the registers `base`, in which the responses `seen` were presented: what
its commands are answered has been seen or is in flight, and its registers are those of the block. -/
structure ServiceRecord.Accounts (b : ServiceRecord) (base : Registers) (seen : List Response) (s : State) : Prop where
  base_eq : b.base = base
  answered : responsesTo b.accepted base = seen ++ s.pending
  regs_eq : b.regs = s.regs

theorem presented_of_rst_low {s : State} (h : s.pinsIn.rst = false) : s.presented = s.rsp := by
  simp [State.presented, h]

/-- A cycle of a command in flight moves its response to the port or leaves it in flight. -/
theorem progress_pending {s : State} {f : InFlight} (hf : s.inflight = some f) :
    (s.progress f).rsp.toList ++ (s.progress f).pending = s.pending := by
  obtain hmore | hlast := Nat.lt_or_ge 1 f.left
  · simp [progress_more s hmore, State.pending, hf]
  · simp [progress_last s hlast, State.pending, hf]

/-- One edge with `rst` low before and after it. -/
theorem ServiceRecord.Accounts.step {b : ServiceRecord} {base : Registers} {seen : List Response} {s t : State}
    (hb : b.Accounts base seen s) (h : step s = .next t) (hs : s.pinsIn.rst = false) (ht : t.pinsIn.rst = false) :
    (b.next s).Accounts base (seen ++ t.presented.toList) t := by
  have hregs := next_regs hb.regs_eq h
  have hspec := event_spec s
  obtain ⟨hbase, hans, hfollows⟩ := hb
  rw [presented_of_rst_low ht]
  obtain ⟨he, rfl⟩ | ⟨f, he, rfl⟩ | ⟨c, g, he, rfl, -⟩ | ⟨he, rfl⟩ := step_cases h <;> rw [he] at hspec
  · simp [hs] at hspec
  · obtain ⟨-, -, hf⟩ := hspec
    rw [next_of_busy b he] at hregs ⊢
    exact ⟨hbase, by rw [List.append_assoc, progress_pending hf, hans], hregs⟩
  · obtain ⟨-, -, hf, -⟩ := hspec
    rw [next_of_command b he] at hregs ⊢
    refine ⟨hbase, ?_, hregs⟩
    have hnow : registersAfter b.accepted base = s.regs := hbase ▸ hfollows
    simp [responsesTo_append, hans, hnow, State.pending, hf, responsesTo]
  · rw [next_of_idle b he] at hregs ⊢
    exact ⟨hbase, by simpa [State.pending] using hans, hregs⟩

/-- Any number of edges with `rst` low. -/
theorem ServiceRecord.Accounts.run {n : Nat} {b : ServiceRecord} {base : Registers} {seen : List Response}
    {s t : State} (hb : b.Accounts base seen s) (hlow : ∀ k, k < n + 1 → (Claims.sample s k).rst = false)
    (h : runEdges n s = .next t) :
    (serviceRecord n b s).Accounts base (seen ++ responsesSeen n s) t := by
  induction n generalizing b seen s with
  | zero => cases h; simpa [serviceRecord, responsesSeen] using hb
  | succ n ih =>
    obtain ⟨u, hu, hrun⟩ := runEdges_succ h
    have hlow' : ∀ k, k < n + 1 → (Claims.sample u k).rst = false := fun k hk => by
      rw [sample_step hu]; exact hlow (k + 1) (Nat.succ_lt_succ hk)
    have hs : s.pinsIn.rst = false := sample_zero s ▸ hlow 0 (Nat.succ_pos _)
    have hu' : u.pinsIn.rst = false := sample_zero u ▸ hlow' 0 (Nat.succ_pos _)
    rw [serviceRecord_succ hu, responsesSeen_succ hu, ← List.append_assoc]
    exact ih (hb.step hu hs hu') hlow' hrun

/-! ## SEED reads no register, and NEXT32 always moves `STATE` -/

theorem instrEffect_seed (d : Word) (r : Registers) : instrEffect (.seed d) r = seedEffect d := rfl

/-- Multiplier and addend are odd, so bit 0 of `STATE` flips (40_advance.md R101). -/
theorem lcgNext_setWidth_one (old inc : Word) : (lcgNext old inc).setWidth 1 = old.setWidth 1 + 1#1 := by
  have hmult : Config.MULT.setWidth 1 = 1#1 := by decide
  have hodd : ∀ b : BitVec 1, b ||| 1#1 = 1#1 := by decide
  have hone : (1#64).setWidth 1 = 1#1 := by decide
  rw [lcgNext, BitVec.setWidth_add _ _ (by decide), BitVec.setWidth_mul _ _ (by decide), BitVec.setWidth_or, hmult,
    hone, hodd, BitVec.one_mul]

theorem lcgNext_ne_self (old inc : Word) : lcgNext old inc ≠ old := by
  intro h
  have hflip : ∀ b : BitVec 1, b ≠ b + 1#1 := by decide
  exact hflip (old.setWidth 1) (by rw [← lcgNext_setWidth_one old inc, h])

/-! ## Several requesters (20_memory.md R49) -/

theorem requesterCommands_cons_self (j : Nat) (c : Command) (zs : List (Nat × Command)) :
    requesterCommands j ((j, c) :: zs) = c :: requesterCommands j zs := by simp [requesterCommands]

theorem requesterCommands_cons_other {j k : Nat} (h : k ≠ j) (c : Command) (zs : List (Nat × Command)) :
    requesterCommands j ((k, c) :: zs) = requesterCommands j zs := by simp [requesterCommands, h]

theorem mem_requesterCommands {z : Nat × Command} {zs : List (Nat × Command)} (h : z ∈ zs) :
    z.2 ∈ requesterCommands z.1 zs := by
  simp only [requesterCommands, List.mem_map, List.mem_filter]
  exact ⟨z, ⟨h, beq_self_eq_true z.1⟩, rfl⟩

/-- The commands of others that only read can be left out of a stream, for the responses of requester `j` and for
the registers. -/
theorem served_alone_of_readers (j : Nat) (zs : List (Nat × Command)) (r : Registers)
    (hread : ∀ z ∈ zs, z.1 ≠ j → readsOnly z.2 = true) :
    requesterResponses j zs r = responsesTo (requesterCommands j zs) r ∧
      registersAfter (zs.map Prod.snd) r = registersAfter (requesterCommands j zs) r := by
  induction zs generalizing r with
  | nil => exact ⟨rfl, rfl⟩
  | cons z zs ih =>
    obtain ⟨k, c⟩ := z
    obtain ⟨hc, hzs⟩ := List.forall_mem_cons.mp hread
    obtain ⟨hrsp, hregs⟩ := ih (transact c r).2 hzs
    by_cases hk : k = j
    · subst hk
      rw [requesterCommands_cons_self]
      exact ⟨by simp [requesterResponses, responsesTo, hrsp], hregs⟩
    · have hkeep : (transact c r).2 = r := transact_regs_of_readsOnly (hc hk) r
      rw [requesterCommands_cons_other hk]
      rw [hkeep] at hrsp hregs
      exact ⟨by simp [requesterResponses, hk, hkeep, hrsp], by simp [registersAfter, hkeep, hregs]⟩

theorem registersAfter_readers {cs : List Command} (hcs : ∀ c ∈ cs, readsOnly c = true) (r : Registers) :
    registersAfter cs r = r := by
  induction cs with
  | nil => rfl
  | cons c cs ih =>
    obtain ⟨hc, hcs⟩ := List.forall_mem_cons.mp hcs
    rw [registersAfter, transact_regs_of_readsOnly hc, ih hcs]

/-! ## Two runs of one host sequence -/

/-- A relation of host states that one command of the host keeps, the two responses being equal. -/
def KeptByCommands (R : HostState → HostState → Prop) : Prop :=
  ∀ (i : Instr) (h g : HostState), R h g →
    (transact (encode i) h.arbitrate.regs).1 = (transact (encode i) g.arbitrate.regs).1 ∧
      R (h.afterCommand (encode i)) (g.afterCommand (encode i))

/-- Two finished sequences end alike, in related host states. -/
structure SeqRun.Matches {α : Type} (R : HostState → HostState → Prop) (x y : SeqRun α) : Prop where
  ending_eq : x.ending = y.ending
  host_related : R x.host y.host

section Matches
variable {R : HostState → HostState → Prop} {α β : Type} {h g : HostState}

theorem matches_done (hg : R h g) (a : α) : (h.done a).Matches R (g.done a) := ⟨rfl, hg⟩

theorem matches_fail (hg : R h g) (e : Fault) : (h.fail e : SeqRun α).Matches R (g.fail e) := ⟨rfl, hg⟩

theorem matches_refuse (hg : R h g) (e : Refusal) : (h.refuse e : SeqRun α).Matches R (g.refuse e) := ⟨rfl, hg⟩

theorem SeqRun.Matches.andThen {x y : SeqRun α} (hxy : x.Matches R y) {f : α → HostState → SeqRun β}
    (hf : ∀ a {h g : HostState}, R h g → (f a h).Matches R (f a g)) :
    (x.andThen f).Matches R (y.andThen f) := by
  obtain ⟨ex, h⟩ := x
  obtain ⟨ey, g⟩ := y
  obtain ⟨rfl, hg⟩ := hxy
  cases ex with
  | value a => exact hf a hg
  | fault e => exact matches_fail hg e
  | refused e => exact matches_refuse hg e

variable (hR : KeptByCommands R)
include hR

theorem matches_issueCommand (hg : R h g) (i : Instr) :
    (issueCommand (encode i) h).Matches R (issueCommand (encode i) g) := by
  obtain ⟨hrsp, hhost⟩ := hR i h g hg
  exact ⟨by simp only [issueCommand, hrsp], hhost⟩

theorem matches_draw (hg : R h g) : (draw h).Matches R (draw g) :=
  (matches_issueCommand hR hg .next32).andThen fun a _ _ hg => matches_done hg (u32 a)

theorem matches_rejectionLoop (fuel : Nat) (b : BitVec 32) (hg : R h g) :
    (rejectionLoop fuel b h).Matches R (rejectionLoop fuel b g) := by
  induction fuel generalizing h g with
  | zero => exact matches_refuse hg .outOfFuel
  | succ fuel ih =>
    refine (matches_draw hR hg).andThen fun r _ _ hg => ?_
    split
    · exact matches_done hg (r % b)
    · exact ih hg

theorem matches_seqBounded (fuel : Nat) (b : BitVec 32) (hg : R h g) :
    (seqBounded fuel b h).Matches R (seqBounded fuel b g) := by
  unfold seqBounded
  split
  · exact matches_fail hg .boundZero
  · exact matches_rejectionLoop hR fuel b hg

theorem matches_seqRanged (fuel : Nat) (f t : BitVec 32) (hg : R h g) :
    (seqRanged fuel f t h).Matches R (seqRanged fuel f t g) := by
  unfold seqRanged
  split
  · exact matches_done hg f
  · split
    · exact matches_fail hg .rangeFull
    · exact (matches_seqBounded hR fuel _ hg).andThen fun _ _ _ hg => matches_done hg _

theorem matches_seqNextF32 (hg : R h g) : (seqNextF32 h).Matches R (seqNextF32 g) := by
  refine (matches_draw hR hg).andThen fun e _ _ hg => ?_
  split
  · exact matches_done hg 0#32
  · split
    · exact matches_refuse hg .leadingZerosOfZero
    · exact (matches_draw hR hg).andThen fun _ _ _ hg => matches_done hg _

theorem matches_seqNormal (P : Config.HostParams) (m d : Binary32) (hg : R h g) :
    (seqNormal P m d h).Matches R (seqNormal P m d g) :=
  (matches_seqNextF32 hR hg).andThen fun _ _ _ hg =>
    (matches_seqNextF32 hR hg).andThen fun _ _ _ hg => matches_done hg _

theorem matches_seqRandomize (t : Word) (hg : R h g) : (seqRandomize t h).Matches R (seqRandomize t g) :=
  (matches_issueCommand hR hg .getstate).andThen fun _ _ _ hg =>
    (matches_issueCommand hR hg (.seed _)).andThen fun _ _ _ hg => matches_done hg ()

/-- A relation that every single command keeps is kept by every pseudo-instruction, and the endings are equal. -/
theorem matches_runPseudo (P : Config.HostParams) (fuel : Nat) (p : Pseudo) (hg : R h g) :
    (runPseudo P fuel p h).Matches R (runPseudo P fuel p g) := by
  cases p with
  | advance =>
    exact ((matches_draw hR hg).andThen fun _ _ _ hg => matches_done hg ()).andThen fun _ _ _ hg => matches_done hg _
  | bounded b => exact (matches_seqBounded hR fuel b hg).andThen fun _ _ _ hg => matches_done hg _
  | ranged f t => exact (matches_seqRanged hR fuel f t hg).andThen fun _ _ _ hg => matches_done hg _
  | nextf32 => exact (matches_seqNextF32 hR hg).andThen fun _ _ _ hg => matches_done hg _
  | nextf64 =>
    exact ((matches_seqNextF32 hR hg).andThen fun u _ _ hg => matches_done hg (widen64 P u)).andThen
      fun _ _ _ hg => matches_done hg _
  | frange f t =>
    exact ((matches_seqNextF32 hR hg).andThen fun u _ _ hg => matches_done hg
      (widen64 P (addF32 P (mulF32 P u (subF32 P t f)) f))).andThen fun _ _ _ hg => matches_done hg _
  | normal m d => exact (matches_seqNormal hR P m d hg).andThen fun _ _ _ hg => matches_done hg _
  | randomize t => exact (matches_seqRandomize hR t hg).andThen fun _ _ _ hg => matches_done hg _

end Matches

/-- What every command of the host keeps, every pseudo-instruction keeps. -/
theorem runPseudo_keeps {Q : HostState → Prop}
    (hQ : ∀ (i : Instr) (h : HostState), Q h → Q (h.afterCommand (encode i)))
    (P : Config.HostParams) (fuel : Nat) (p : Pseudo) {h : HostState} (hh : Q h) : Q (runPseudo P fuel p h).host := by
  have hkept : KeptByCommands fun h g => h = g ∧ Q h := by
    rintro i h _ ⟨rfl, hh⟩
    exact ⟨rfl, rfl, hQ i h hh⟩
  exact (matches_runPseudo hkept P fuel p ⟨rfl, hh⟩).host_related.2

/-! ## The host states that a list of own commands leaves -/

/-- The host after the commands `cs` of its own. -/
def HostState.afterCommands (cs : List Command) (h : HostState) : HostState :=
  cs.foldl (fun h c => h.afterCommand c) h

/-- Every pseudo-instruction leaves what some list of own commands leaves. -/
theorem exists_runPseudo_host_eq_afterCommands (P : Config.HostParams) (fuel : Nat) (p : Pseudo) (h : HostState) :
    ∃ cs, (runPseudo P fuel p h).host = h.afterCommands cs := by
  refine runPseudo_keeps (Q := fun g => ∃ cs, g = h.afterCommands cs) ?_ P fuel p ⟨[], rfl⟩
  rintro i _ ⟨cs, rfl⟩
  exact ⟨cs ++ [encode i], by simp [HostState.afterCommands]⟩

/-- The stream the block serves for the own commands `own`, with one list of the others' commands before each. -/
def arbitrated : List Command → List (List (Nat × Command)) → List (Nat × Command)
  | [], _ => []
  | c :: cs, others => (others.headD []).map (fun z => (z.1 + 1, z.2)) ++ (0, c) :: arbitrated cs others.tail

/-- Own commands leave the registers of the arbitrated stream, which is served, and the lists not yet due. -/
theorem afterCommands_eq (own : List Command) (h : HostState) :
    h.afterCommands own =
      ⟨registersAfter ((arbitrated own h.others).map Prod.snd) h.regs, h.others.drop own.length,
        h.served ++ arbitrated own h.others⟩ := by
  induction own generalizing h with
  | nil => simp [HostState.afterCommands, arbitrated, registersAfter]
  | cons c cs ih =>
    rw [HostState.afterCommands, List.foldl_cons, ← HostState.afterCommands, ih]
    simp [arbitrated, registersAfter_append, registersAfter, HostState.arbitrate, HostState.othersNext,
      List.drop_tail]

theorem requesterCommands_zero_arbitrated (own : List Command) (others : List (List (Nat × Command))) :
    requesterCommands 0 (arbitrated own others) = own := by
  induction own generalizing others with
  | nil => rfl
  | cons c cs ih =>
    rw [arbitrated, requesterCommands_append, requesterCommands_cons_self, ih]
    simp [requesterCommands, List.filter_map, Function.comp_def]

theorem requesterCommands_shift (j : Nat) (zs : List (Nat × Command)) :
    requesterCommands (j + 1) (zs.map fun z => (z.1 + 1, z.2)) = requesterCommands j zs := by
  simp [requesterCommands, List.filter_map, Function.comp_def]

/-- Another requester's part of the arbitrated stream is its part of the lists served. -/
theorem requesterCommands_succ_arbitrated (j : Nat) (own : List Command) (others : List (List (Nat × Command))) :
    requesterCommands (j + 1) (arbitrated own others) =
      requesterCommands j (others.take own.length).flatten := by
  induction own generalizing others with
  | nil => rfl
  | cons c cs ih =>
    rw [arbitrated, requesterCommands_append, requesterCommands_cons_other (Nat.zero_ne_add_one j),
      requesterCommands_shift, ih, ← requesterCommands_append]
    cases others <;> simp

/-- A command of another requester in front of the stream belongs to the first list. -/
theorem arbitrated_cons_other (c : Command) (cs : List Command) (z : Nat × Command) (zs : List (Nat × Command))
    (others : List (List (Nat × Command))) :
    arbitrated (c :: cs) ((z :: zs) :: others) = (z.1 + 1, z.2) :: arbitrated (c :: cs) (zs :: others) := rfl

/-- Every stream that ends with an own command is an arbitrated stream, of as many lists as own commands. -/
theorem exists_arbitrated_eq (zs : List (Nat × Command)) (c : Command) :
    ∃ others, others.length = (requesterCommands 0 (zs ++ [(0, c)])).length ∧
      arbitrated (requesterCommands 0 (zs ++ [(0, c)])) others = zs ++ [(0, c)] := by
  induction zs with
  | nil => exact ⟨[[]], rfl, rfl⟩
  | cons z zs ih =>
    obtain ⟨others, hlen, hstream⟩ := ih
    obtain ⟨k, d⟩ := z
    rw [List.cons_append]
    cases k with
    | zero =>
      rw [requesterCommands_cons_self]
      exact ⟨[] :: others, by simp [hlen], by simp [arbitrated, hstream]⟩
    | succ k =>
      rw [requesterCommands_cons_other k.succ_ne_zero]
      cases hown : requesterCommands 0 (zs ++ [(0, c)]) with
      | nil => simp [requesterCommands_append, requesterCommands_cons_self] at hown
      | cons e own =>
        rw [hown] at hlen hstream
        cases others with
        | nil => simp at hlen
        | cons first rest => exact ⟨((k, d) :: first) :: rest, hlen, by rw [arbitrated_cons_other, hstream]⟩

/-! ## A host that shares the block with readers -/

/-- `h` shares the block with requesters that only read, `g` holds it alone, and they have done the same. -/
structure HostState.SharedWithReaders (h g : HostState) : Prop where
  readers : ∀ zs ∈ h.others, ∀ z ∈ zs, readsOnly z.2 = true
  alone : g.others = []
  issued_eq : h.issued = g.issued
  regs_eq : h.regs = g.regs

/-- Readers served before the next command leave the registers. -/
theorem arbitrate_regs_of_readers {h : HostState} (hread : ∀ zs ∈ h.others, ∀ z ∈ zs, readsOnly z.2 = true) :
    h.arbitrate.regs = h.regs := by
  refine registersAfter_readers (fun c hc => ?_) h.regs
  cases ho : h.others with
  | nil => simp [HostState.othersNext, ho] at hc
  | cons first rest =>
    simp only [HostState.othersNext, ho, List.headD_cons, List.map_map, List.mem_map] at hc
    obtain ⟨z, hz, rfl⟩ := hc
    exact hread first (by simp [ho]) z hz

theorem sharedWithReaders_keptByCommands : KeptByCommands HostState.SharedWithReaders := by
  rintro i h g ⟨hread, halone, hissued, hregs⟩
  have hturn : h.arbitrate.regs = g.arbitrate.regs := by
    rw [arbitrate_regs_of_readers hread, arbitrate_alone halone, hregs]
  exact ⟨by rw [hturn], {
    readers := fun zs hzs => hread zs (List.mem_of_mem_tail hzs)
    alone := by simp [halone]
    issued_eq := by simp [hissued]
    regs_eq := by simp [hturn] }⟩

/-! ## NEXTF32 with a first draw that is not 0 -/

theorem clz32_of_ne_zero {x : BitVec 32} (hx : x ≠ 0#32) : clz32 x = some (31 - Nat.log2 x.toNat) := if_neg hx

/-- A second draw is made, and its mantissa is scaled by the leading zeros of the first (45_host_sequences.md R158). -/
theorem seqNextF32_of_ne_zero {h : HostState} (he : advanceOutput h.arbitrate.regs.state ≠ 0#32) {z : Nat}
    (hz : clz32 (advanceOutput h.arbitrate.regs.state) = some z) :
    seqNextF32 h =
      ⟨.value (scaleDraw
          (mantissaOf (advanceOutput (h.afterCommand Claims.next32Command).arbitrate.regs.state)) (-32 - (z : Int))),
        (h.afterCommand Claims.next32Command).afterCommand Claims.next32Command⟩ := by
  have hword : encode .next32 = Claims.next32Command := by decide
  simp [seqNextF32, draw_eq, he, hz, hword, HostState.done]

end Sys2Proof.Machine

namespace Sys2Proof.Claims

open Sys2Proof.Machine

/-- Settles O33: the record of the run accounts for the responses and the registers at every edge. -/
theorem everyRunServesAcceptedCommandsInOrder : Obligations.EveryRunServesAcceptedCommandsInOrder := by
  intro n s t hbusy hlow hrun
  have hstart : ServiceRecord.Accounts ⟨s.regs, []⟩ s.regs [] s :=
    ⟨rfl, by simp [State.pending, busy_eq_false_iff.mp hbusy, responsesTo], rfl⟩
  obtain ⟨hbase, hans, hregs⟩ := hstart.run hlow hrun
  exact ⟨hans, by rw [← hregs, ServiceRecord.regs, hbase]⟩

/-- Settles O34, by induction on the edges. -/
theorem registersFollowCommandsSinceReset : Obligations.RegistersFollowCommandsSinceReset :=
  fun _ _ _ _ hb hrun => serviceRecord_regs hb hrun

/-- Settles O19: a draw flips bit 0 of `STATE`, and a SEED reads no register. -/
theorem idempotencyOfCommands : Obligations.IdempotencyOfCommands := by
  refine ⟨fun r => ⟨rfl, rfl, rfl, rfl⟩, fun _ _ => rfl, fun d r => by simp only [instrEffect_seed],
    fun r => lcgNext_ne_self r.state r.inc, fun r q hstate hinc => ?_⟩
  obtain ⟨hrsp, hnext, -⟩ := instrEffect_agreeOffSeed (i := .next32) (by simp) ⟨hstate, hinc⟩
  exact ⟨hrsp, hnext⟩

/-- Settles O41: the others' commands in the interleaving only read, so they can be left out. -/
theorem readersDoNotDisturbOtherRequesters : Obligations.ReadersDoNotDisturbOtherRequesters := by
  intro streams zs j r hzs hread
  rw [← hzs j]
  refine served_alone_of_readers j zs r fun z hz hne => hread z.1 hne z.2 ?_
  rw [← hzs z.1]
  exact mem_requesterCommands hz

/-- Settles O56: a sequence leaves what its own commands leave, each after one list of the others' commands; and a
stream is cut into such lists at its own commands. -/
theorem hostSequencesInterleaveWithOthers : Obligations.HostSequencesInterleaveWithOthers := by
  constructor
  · intro P fuel p h
    obtain ⟨own, hown⟩ := exists_runPseudo_host_eq_afterCommands P fuel p h
    rw [hown, afterCommands_eq]
    refine ⟨own, arbitrated own h.others, ?_, rfl, rfl, rfl, fun j => ?_⟩
    · simp [HostState.issued, requesterCommands_append, requesterCommands_zero_arbitrated]
    · cases j with
      | zero => exact requesterCommands_zero_arbitrated own h.others
      | succ j => exact requesterCommands_succ_arbitrated j own h.others
  · intro r zs c
    obtain ⟨others, hlen, hstream⟩ := exists_arbitrated_eq zs c
    refine ⟨others, (afterCommands_eq _ _).trans ?_⟩
    simp only [hstream, ← hlen, List.drop_length, List.nil_append]

/-- Settles O57: sharing with readers is kept by every command, so by every sequence. -/
theorem readersDoNotDisturbHostSequences : Obligations.ReadersDoNotDisturbHostSequences := by
  intro P fuel p h hread
  have hstart : h.SharedWithReaders { h with others := [] } := ⟨hread, rfl, rfl, rfl⟩
  obtain ⟨hending, hhost⟩ := matches_runPseudo sharedWithReaders_keptByCommands P fuel p hstart
  exact ⟨hending, hhost.issued_eq, hhost.regs_eq⟩

/-- Settles O58: NEXTF32 takes its second draw from the registers that the other requester's draw left. -/
theorem drawInBetweenShiftsNextF32 : Obligations.DrawInBetweenShiftsNextF32 := by
  intro r j he
  have hz := clz32_of_ne_zero he
  have hshared := seqNextF32_of_ne_zero (h := ⟨r, [[], [(j, next32Command)]], []⟩) he hz
  have halone := seqNextF32_of_ne_zero (h := ⟨r, [], []⟩) he hz
  have hsecond : (HostState.afterCommand next32Command ⟨r, [], []⟩).arbitrate.regs =
      registersAfter (draws 1) r := by
    simp [HostState.arbitrate, HostState.othersNext, registersAfter, draws]
  have hthird : (HostState.afterCommand next32Command ⟨r, [[], [(j, next32Command)]], []⟩).arbitrate.regs =
      registersAfter (draws 2) r := by
    simp [HostState.arbitrate, HostState.othersNext, registersAfter, draws]
  refine ⟨_, hz, by rw [hshared, hthird], by rw [halone, hsecond], ?_⟩
  rw [hshared, afterCommand_regs, hthird]
  exact (registersAfter_append (draws 2) [next32Command] r).symm

end Sys2Proof.Claims

/-! SUPPORT. The family of 30_encoding.md: command words and their decoding, the script lines of instructions, and the
clocked port that serves a command for its latency; the obligations are settled from these. -/

namespace Sys2Proof

/-! ## Command words (30_encoding.md R65 to R68) -/

/-- The decoder reads an instruction back from its command. -/
@[simp] theorem decode_encode (i : Instr) : decode (encode i) = .ok i := by
  cases i <;> simp [decode, decodeOpc, rsvField, opcField, encode, opcOf, dataOf]

/-- A command written as one 72-bit number, its data above its word, is read back from it. -/
@[simp] theorem commandOfWord_72 (c : Command) : commandOfWord 72 (c.op.toNat + 2 ^ 8 * c.data.toNat) = c := by
  have hop := c.op.isLt
  have hdata := c.data.isLt
  have hfits : (c.op.toNat + 2 ^ 8 * c.data.toNat) % 2 ^ 72 = c.op.toNat + 2 ^ 8 * c.data.toNat :=
    Nat.mod_eq_of_lt (by omega)
  have hlow : BitVec.ofNat 8 (c.op.toNat + 2 ^ 8 * c.data.toNat) = c.op :=
    BitVec.eq_of_toNat_eq (by rw [BitVec.toNat_ofNat]; omega)
  have hhigh : (c.op.toNat + 2 ^ 8 * c.data.toNat) / 2 ^ 8 = c.data.toNat := by omega
  rw [commandOfWord, hfits, hlow, hhigh, BitVec.ofNat_toNat, BitVec.setWidth_eq]

theorem wellFormed_all (i : Instr) : i.wellFormed = true := by cases i <;> rfl

theorem encode_seed (d : Word) : encode (.seed d) = ⟨0x02#8, d⟩ := by simp [encode, opcOf, dataOf]

theorem encode_setstate (d : Word) : encode (.setstate d) = ⟨0x04#8, d⟩ := by simp [encode, opcOf, dataOf]

/-- A command that decodes to an instruction has its word, and its data where the instruction takes an operand
(R66: the other instructions ignore it). -/
theorem eq_encode_of_decode {c : Command} {i : Instr} (h : decode c = .ok i) :
    c.op = (encode i).op ∧ ((∃ d, i = .seed d ∨ i = .setstate d) → c = encode i) := by
  obtain ⟨hop, hd⟩ | ⟨hop, hd⟩ | ⟨hop, hd⟩ | ⟨hop, hd⟩ | ⟨hop, hd⟩ | ⟨-, hd⟩ := decode_cases c <;>
    cases hd.symm.trans h
  · exact ⟨hop, by simp⟩
  · have hc : c = encode (.seed c.data) := by rw [encode_seed, ← hop]
    exact ⟨congrArg Command.op hc, fun _ => hc⟩
  · exact ⟨hop, by simp⟩
  · have hc : c = encode (.setstate c.data) := by rw [encode_setstate, ← hop]
    exact ⟨congrArg Command.op hc, fun _ => hc⟩
  · exact ⟨hop, by simp⟩

/-- The decoder answers an instruction exactly at a legal word. -/
theorem isOk_decode (c : Command) : (decode c).isOk = c.legal := by
  obtain ⟨hop, hd⟩ | ⟨hop, hd⟩ | ⟨hop, hd⟩ | ⟨hop, hd⟩ | ⟨hop, hd⟩ | ⟨hill, hd⟩ := decode_cases c <;> rw [hd]
  case inr.inr.inr.inr.inr => exact hill.symm
  all_goals rw [Command.legal, hop]; rfl

theorem legal_iff_decode_ok (c : Command) : c.legal = true ↔ ∃ i, decode c = .ok i := by
  rw [← isOk_decode]
  cases decode c <;> simp [Except.isOk, Except.toBool]

theorem legal_eq_false_iff_decode_error (c : Command) : c.legal = false ↔ ∃ e, decode c = .error e := by
  rw [← isOk_decode]
  cases decode c <;> simp [Except.isOk, Except.toBool]

/-- The fields of an illegal word, over all 256 words. -/
theorem legal_eq_false_iff (c : Command) : c.legal = false ↔
    (c.op >>> 3 ≠ 0#8 ∨ c.op &&& 7#8 = 0#8 ∨ c.op &&& 7#8 = 6#8 ∨ c.op &&& 7#8 = 7#8) := by
  have hwords : ∀ op : OpByte, (op.rsvZero && op.opcAssigned) = false ↔
      (op >>> 3 ≠ 0#8 ∨ op &&& 7#8 = 0#8 ∨ op &&& 7#8 = 6#8 ∨ op &&& 7#8 = 7#8) := by decide
  exact hwords c.op

/-- Five words are legal, whatever stands on `cmd_data`. -/
theorem legal_words (d : Word) :
    (List.range 256).filter (fun n => Command.legal ⟨BitVec.ofNat 8 n, d⟩) = [1, 2, 3, 4, 5] := by
  simp only [Command.legal]
  decide

end Sys2Proof

namespace Sys2Proof.Machine

/-! ## Numbers in a script (R69) -/

theorem hexDigitValue_hexDigit {n : Nat} (hn : n < 16) : hexDigitValue (hexDigit n) = some n := by
  revert n; decide

theorem readDigits_append_digit (b acc n : Nat) (ds : List Char) (c : Char)
    (h : readDigits b acc ds = some n) {d : Nat} (hc : hexDigitValue c = some d) (hd : d < b) :
    readDigits b acc (ds ++ [c]) = some (n * b + d) := by
  induction ds generalizing acc with
  | nil => cases h; simp [readDigits, hc, hd]
  | cons e ds ih =>
    simp only [List.cons_append, readDigits] at h ⊢
    split at h
    · split at h
      · rw [if_pos ‹_›]; exact ih _ h
      · cases h
    · cases h

/-- The digits printed for the low `k` hexadecimal places of a number are read as its remainder. -/
theorem readDigits_hexDigits (k n : Nat) : readDigits 16 0 (hexDigits k n) = some (n % 16 ^ k) := by
  induction k generalizing n with
  | zero => simp [hexDigits, readDigits, Nat.mod_one]
  | succ k ih =>
    have hlt : n % 16 < 16 := Nat.mod_lt n (by decide)
    rw [hexDigits, readDigits_append_digit 16 0 _ _ _ (ih (n / 16)) (hexDigitValue_hexDigit hlt) hlt,
      Nat.pow_succ', Nat.mod_mul, Nat.mul_comm, Nat.add_comm]

theorem hexDigits_succ_ne_nil (k n : Nat) : hexDigits (k + 1) n ≠ [] := by simp [hexDigits]

theorem parseOperand_printWord (w : Word) : parseOperand (printWord w) = some (.number w.toNat) := by
  have hnumber : parseNumber (printWord w) = some w.toNat := by
    have hdigits := readDigits_hexDigits 16 w.toNat
    have hlt : w.toNat < 16 ^ 16 := w.isLt
    obtain ⟨d, ds, hds⟩ := List.exists_cons_of_ne_nil (hexDigits_succ_ne_nil 15 w.toNat)
    rw [hds, Nat.mod_eq_of_lt hlt] at hdigits
    simp only [parseNumber, printWord, hds, hdigits, if_pos w.isLt]
  simp only [parseOperand, hnumber]

/-! ## Words of a line -/

theorem not_space_mem_hexDigits (k n : Nat) : ' ' ∉ hexDigits k n := by
  have hdigit : ∀ d < 16, ' ' ≠ hexDigit d := by decide
  induction k generalizing n with
  | zero => simp [hexDigits]
  | succ k ih => simp [hexDigits, ih, hdigit _ (Nat.mod_lt n (by decide : 0 < 16))]

theorem not_space_mem_printWord (w : Word) : ' ' ∉ printWord w := by
  simp [printWord, not_space_mem_hexDigits]

theorem not_space_mem_mnemonicSpelling (m : Mnemonic) : ' ' ∉ mnemonicSpelling m := by cases m <;> decide

theorem splitSpaces_word {w : List Char} (hw : ' ' ∉ w) : splitSpaces w = [w] := by
  induction w with
  | nil => rfl
  | cons c cs ih =>
    obtain ⟨hc, hcs⟩ := List.ne_and_not_mem_of_not_mem_cons hw
    simp [splitSpaces, ih hcs, Ne.symm hc, consWord]

theorem splitSpaces_word_append {w : List Char} (hw : ' ' ∉ w) (line : List Char) :
    splitSpaces (w ++ ' ' :: line) = w :: splitSpaces line := by
  induction w with
  | nil => simp [splitSpaces]
  | cons c cs ih =>
    obtain ⟨hc, hcs⟩ := List.ne_and_not_mem_of_not_mem_cons hw
    simp [splitSpaces, ih hcs, Ne.symm hc, consWord]

/-! ## The line of an instruction -/

/-- The operand of an instruction's script line: the number of its data, where its mnemonic takes one. -/
def operandOf (i : Instr) : Option ScriptOperand :=
  if (mnemonicOf i).takesOperand then some (.number (dataOf i).toNat) else none

/-- The script line that an instruction's text is read as. -/
def scriptLineOf (i : Instr) : ScriptLine := .command none (mnemonicOf i) (operandOf i)

theorem parseMnemonic_mnemonicSpelling (m : Mnemonic) : parseMnemonic (mnemonicSpelling m) = some m := by
  cases m <;> decide

theorem parseLine_mnemonicSpelling {m : Mnemonic} (hm : m.takesOperand = false) :
    parseLine (mnemonicSpelling m) = some (.command none m none) := by
  cases m with
  | next32 | getseed | getstate => decide
  | seed | setstate => cases hm

theorem wordsOf_operandLine (m : Mnemonic) (d : Word) :
    wordsOf (mnemonicSpelling m ++ ' ' :: printWord d) = [mnemonicSpelling m, printWord d] := by
  have hm : (mnemonicSpelling m).isEmpty = false := by cases m <;> rfl
  rw [wordsOf, splitSpaces_word_append (not_space_mem_mnemonicSpelling m),
    splitSpaces_word (not_space_mem_printWord d)]
  simp [hm, printWord]

/-- No mnemonic begins with the semicolon of a comment. -/
theorem mnemonicSpelling_append_ne_comment (m : Mnemonic) (rest text : List Char) :
    mnemonicSpelling m ++ rest ≠ ';' :: text := by
  cases m <;> simp [mnemonicSpelling]

theorem parseLine_operandLine {m : Mnemonic} (hm : m.takesOperand = true) (d : Word) :
    parseLine (mnemonicSpelling m ++ ' ' :: printWord d) = some (.command none m (some (.number d.toNat))) := by
  have hcommand : parseCommand none [mnemonicSpelling m, printWord d] =
      some (.command none m (some (.number d.toNat))) := by
    simp [parseCommand, parseMnemonic_mnemonicSpelling, parseOperand_printWord, hm]
  rw [parseLine, wordsOf_operandLine]
  · exact hcommand
  · exact mnemonicSpelling_append_ne_comment m _

theorem parseLine_printInstr (i : Instr) : parseLine (printInstr i) = some (scriptLineOf i) := by
  rw [printInstr, scriptLineOf, operandOf]
  cases hm : (mnemonicOf i).takesOperand with
  | true => exact parseLine_operandLine hm (dataOf i)
  | false => exact parseLine_mnemonicSpelling hm

theorem lineInstr_operandOf (env : Results) (i : Instr) : lineInstr env (mnemonicOf i) (operandOf i) = some i := by
  cases i with
  | next32 | getseed | getstate => rfl
  | seed d | setstate d =>
    simp [operandOf, mnemonicOf, Mnemonic.takesOperand, lineInstr, operandValue, dataOf, d.isLt, instrOf]

theorem wellFormed_scriptLineOf (i : Instr) : (scriptLineOf i).wellFormed = true := by
  cases i with
  | next32 | getseed | getstate => rfl
  | seed d | setstate d => exact decide_eq_true d.isLt

/-- A script of instruction lines runs as their commands, whatever names stand before it. -/
theorem runScript_map_scriptLineOf (is : List Instr) (env : Results) (r : Registers) :
    runScript (is.map scriptLineOf) env r = some (responsesTo (is.map encode) r, registersAfter (is.map encode) r) := by
  induction is generalizing r with
  | nil => rfl
  | cons i is ih => simp [scriptLineOf, runScript, lineInstr_operandOf, bindResult, ih, responsesTo, registersAfter]

/-! ## The edge that accepts a command -/

theorem step_of_accepts {s : State} {c : Command} (h : Claims.Accepts s c) : step s = acceptCommand c s.clocked := by
  simp only [step, event_command_iff_accepts.mpr h]

theorem acceptCommand_ok {c : Command} {i : Instr} (h : decode c = .ok i) (s : State) :
    acceptCommand c s = exec i s := by simp only [acceptCommand, h]

theorem acceptCommand_error {c : Command} {e : DecodeError} (h : decode c = .error e) (s : State) :
    acceptCommand c s = .next s.raiseIllegalCommand := by simp only [acceptCommand, h]

/-- A word put at the pins is accepted at the coming edge (log 6). -/
theorem accepts_withFetchWord (s : State) (nbits w : Nat) :
    Claims.Accepts (s.withFetchWord nbits w) (commandOfWord nbits w) := ⟨rfl, rfl, rfl, rfl, rfl, rfl⟩

/-! ## The edges that serve a command (R61 to R63) -/

theorem step_busy {s : State} {f : InFlight} (h : s.event = .busy f) : step s = .next (s.progress f) := by
  simp only [step, h]

theorem step_of_resetCutShort {s : State} (hrst : s.pinsIn.rst = false) (hcut : s.resetCutShort = true) :
    step s = .fault .resetTooShort := by simp [step, State.event, hrst, hcut]

/-- While a command is in flight an edge with `rst` low reads no other pin: it goes on with the command, or stops at a
reset cut short (R61). -/
theorem step_eq_of_busy {s t : State} {f : InFlight} (hf : s.inflight = some f) (hs : s.pinsIn.rst = false)
    (ht : t.pinsIn.rst = false) (hclocked : t.clocked = s.clocked) (hcut : t.resetCutShort = s.resetCutShort) :
    step s = step t := by
  have hft : t.inflight = some f := (congrArg State.inflight hclocked).trans hf
  have hprogress : t.progress f = s.progress f := by simp only [State.progress, hclocked]
  cases hc : s.resetCutShort with
  | true => rw [step_of_resetCutShort hs hc, step_of_resetCutShort ht (hcut.trans hc)]
  | false => rw [step_busy (event_busy hs hc hf), step_busy (event_busy ht (hcut.trans hc) hft), hprogress]

/-- A step answers unless a reset is cut short. -/
theorem exists_step_of_not_resetCutShort {s : State} (hcut : s.resetCutShort = false) : ∃ t, step s = .next t := by
  have hspec := event_spec s
  cases he : s.event with
  | reset => exact ⟨s.resetEdge, by simp only [step, he]⟩
  | resetTooShort => simp [he, hcut] at hspec
  | busy f => exact ⟨s.progress f, step_busy he⟩
  | command c =>
    obtain ⟨g, hg, -⟩ := acceptCommand_eq c s.clocked
    exact ⟨_, by simp only [step, he]; exact hg⟩
  | idle => exact ⟨s.clocked, by simp only [step, he]⟩

/-- An edge with nothing in flight leaves no response presented. -/
theorem step_rsp_of_idle {s t : State} (h : step s = .next t) (hidle : s.inflight = none) : t.rsp = none := by
  have hspec := event_spec s
  obtain ⟨-, rfl⟩ | ⟨f, he, -⟩ | ⟨c, g, -, rfl, -⟩ | ⟨-, rfl⟩ := step_cases h
  · rfl
  · simp [he, hidle] at hspec
  · rfl
  · rfl

theorem resetCutShort_of_rstEdges_zero {s : State} (h : s.rstEdges = 0) : s.resetCutShort = false := by
  simp [State.resetCutShort, h]

theorem presented_of_rsp_none {s : State} (h : s.rsp = none) : s.presented = none := by simp [State.presented, h]

theorem runEdges_of_step {s t : State} (h : step s = .next t) (n : Nat) : runEdges (n + 1) s = runEdges n t := by
  simp only [runEdges, h]

theorem runEdges_add {m : Nat} {s t : State} (h : runEdges m s = .next t) (n : Nat) :
    runEdges (m + n) s = runEdges n t := by
  induction m generalizing s with
  | zero => cases h; rw [Nat.zero_add]
  | succ m ih =>
    obtain ⟨u, hu, hrun⟩ := runEdges_succ h
    rw [Nat.succ_add, runEdges_of_step hu, ih hrun]

theorem responsesSeen_add {m : Nat} {s t : State} (h : runEdges m s = .next t) (n : Nat) :
    responsesSeen (m + n) s = responsesSeen m s ++ responsesSeen n t := by
  induction m generalizing s with
  | zero => cases h; rw [Nat.zero_add]; rfl
  | succ m ih =>
    obtain ⟨u, hu, hrun⟩ := runEdges_succ h
    rw [Nat.succ_add, responsesSeen_succ hu, responsesSeen_succ hu, ih hrun, List.append_assoc]

theorem runEdges_inputs {n : Nat} {s t : State} (h : runEdges n s = .next t) : t.inputs = s.inputs.drop n := by
  induction n generalizing s with
  | zero => cases h; rfl
  | succ n ih =>
    obtain ⟨u, hu, hrun⟩ := runEdges_succ h
    rw [ih hrun, step_inputs hu, List.drop_tail]

theorem sample_runEdges {n : Nat} {s t : State} (h : runEdges n s = .next t) (k : Nat) :
    Claims.sample t k = Claims.sample s (n + k) := by
  simp [Claims.sample, runEdges_inputs h, List.getD_eq_getElem?_getD]

theorem pinsIn_runEdges {n : Nat} {s t : State} (h : runEdges n s = .next t) : t.pinsIn = Claims.sample s n := by
  rw [← sample_zero, sample_runEdges h, Nat.add_zero]

/-- A command is in flight: `left` cycles are to go until its response `rsp` is presented, none is presented now, and
the registers are already those after it (log 3). -/
structure State.Serves (s : State) (regs : Registers) (rsp : Response) (left : Nat) : Prop where
  inflight_eq : ∃ g, s.inflight = some ⟨rsp, left, g⟩
  regs_eq : s.regs = regs
  rsp_none : s.rsp = none
  rstEdges_zero : s.rstEdges = 0

/-- The response `rsp` of a command is presented and the port is free again. -/
structure State.Answers (s : State) (regs : Registers) (rsp : Response) : Prop where
  inflight_none : s.inflight = none
  regs_eq : s.regs = regs
  rsp_eq : s.rsp = some rsp
  rstEdges_zero : s.rstEdges = 0

section Serve
variable {s : State} {regs : Registers} {rsp : Response} {c : Command} {left k : Nat}

theorem State.Serves.busy (h : s.Serves regs rsp left) : s.busy = true := by
  obtain ⟨g, hg⟩ := h.inflight_eq
  simp [State.busy, hg]

/-- The edge that accepts a command puts its transaction in flight. -/
theorem serves_of_accepts (h : Claims.Accepts s c) :
    ∃ t, step s = .next t ∧ t.Serves (transact c s.regs).2 (transact c s.regs).1 (commandLatency c) := by
  have ⟨_, _, _, _, _, hcut⟩ := h
  obtain ⟨t, ht⟩ := exists_step_of_not_resetCutShort hcut
  obtain ⟨he, -⟩ | ⟨f, he, -⟩ | ⟨c', g, he, rfl, -⟩ | ⟨he, -⟩ := step_cases ht <;>
    cases he.symm.trans (event_command_iff_accepts.mpr h)
  exact ⟨_, ht, ⟨g, rfl⟩, rfl, rfl, rfl⟩

/-- An edge of a busy port without reset is one cycle of the command in flight. -/
theorem State.Serves.step_eq (h : s.Serves regs rsp left) (hlow : s.pinsIn.rst = false) :
    ∃ g, step s = .next (s.progress ⟨rsp, left, g⟩) := by
  obtain ⟨g, hg⟩ := h.inflight_eq
  exact ⟨g, step_busy (event_busy hlow (resetCutShort_of_rstEdges_zero h.rstEdges_zero) hg)⟩

theorem State.Serves.step_more (h : s.Serves regs rsp (left + 2)) (hlow : s.pinsIn.rst = false) :
    ∃ t, step s = .next t ∧ t.Serves regs rsp (left + 1) := by
  obtain ⟨g, hstep⟩ := h.step_eq hlow
  rw [progress_more s (by simp)] at hstep
  exact ⟨_, hstep, ⟨g, rfl⟩, h.regs_eq, rfl, rfl⟩

theorem State.Serves.step_last (h : s.Serves regs rsp 1) (hlow : s.pinsIn.rst = false) :
    ∃ t, step s = .next t ∧ t.Answers regs rsp := by
  obtain ⟨g, hstep⟩ := h.step_eq hlow
  rw [progress_last s (Nat.le_refl 1)] at hstep
  exact ⟨_, hstep, rfl, h.regs_eq, rfl, rfl⟩

/-- Any number of cycles before the last: no response is presented in them. -/
theorem State.Serves.run (h : s.Serves regs rsp (left + k + 1)) (hlow : ∀ j < k, (Claims.sample s j).rst = false) :
    ∃ t, runEdges k s = .next t ∧ responsesSeen k s = [] ∧ t.Serves regs rsp (left + 1) := by
  induction k generalizing s with
  | zero => exact ⟨s, rfl, rfl, h⟩
  | succ k ih =>
    obtain ⟨u, hu, hserves⟩ := h.step_more (left := left + k) (sample_zero s ▸ hlow 0 k.succ_pos)
    obtain ⟨t, hrun, hseen, ht⟩ := ih hserves fun j hj => by
      rw [sample_step hu]; exact hlow (j + 1) (Nat.succ_lt_succ hj)
    refine ⟨t, (runEdges_of_step hu k).trans hrun, ?_, ht⟩
    rw [responsesSeen_succ hu, presented_of_rsp_none hserves.rsp_none, hseen]
    rfl

/-- After `k` of its latency's edges an accepted command is still in flight, and nothing was presented. -/
theorem serves_runEdges (h : Claims.Accepts s c) (hk : 1 ≤ k) (hlat : k ≤ commandLatency c)
    (hlow : ∀ j, 1 ≤ j → j < k → (Claims.sample s j).rst = false) :
    ∃ t, runEdges k s = .next t ∧ responsesSeen k s = [] ∧
      t.Serves (transact c s.regs).2 (transact c s.regs).1 (commandLatency c - k + 1) := by
  obtain ⟨k, rfl⟩ := Nat.exists_eq_add_of_le' hk
  obtain ⟨u, hu, hserves⟩ := serves_of_accepts h
  have hleft : commandLatency c = commandLatency c - (k + 1) + k + 1 := by omega
  rw [hleft] at hserves
  obtain ⟨t, hrun, hseen, ht⟩ := hserves.run fun j hj => by
    rw [sample_step hu]; exact hlow (j + 1) (Nat.succ_pos j) (Nat.succ_lt_succ hj)
  refine ⟨t, (runEdges_of_step hu k).trans hrun, ?_, ht⟩
  rw [responsesSeen_succ hu, presented_of_rsp_none hserves.rsp_none, hseen]
  rfl

/-- One edge after its latency the response of an accepted command is presented, the first since its acceptance. -/
theorem answers_runEdges (h : Claims.Accepts s c)
    (hlow : ∀ k, 1 ≤ k → k ≤ commandLatency c → (Claims.sample s k).rst = false) :
    ∃ t, runEdges (commandLatency c + 1) s = .next t ∧
      responsesSeen (commandLatency c + 1) s = t.presented.toList ∧
      t.Answers (transact c s.regs).2 (transact c s.regs).1 := by
  have hpos := commandLatency_pos c
  obtain ⟨u, hrun, hseen, hserves⟩ :=
    serves_runEdges h hpos (Nat.le_refl _) fun j hj hlt => hlow j hj (Nat.le_of_lt hlt)
  rw [Nat.sub_self] at hserves
  obtain ⟨t, ht, hanswers⟩ := hserves.step_last (pinsIn_runEdges hrun ▸ hlow _ hpos (Nat.le_refl _))
  refine ⟨t, ?_, ?_, hanswers⟩
  · rw [runEdges_add hrun, runEdges_of_step ht]; rfl
  · rw [responsesSeen_add hrun, hseen, responsesSeen_succ ht]; simp [responsesSeen]

end Serve

/-! ## A host that drives commands (R64) -/

theorem driveAll_cons (c : Command) (cs : List Command) : driveAll (c :: cs) = drive c ++ driveAll cs := rfl

theorem length_drive (c : Command) : (drive c).length = commandLatency c + 1 := by simp [drive]

/-- The pins of a driven command keep `rst` low. -/
theorem drive_rst_low (c : Command) (ps : List PortIn) {k : Nat} (hk : k ≤ commandLatency c) :
    ((drive c ++ ps).getD k PortIn.idle).rst = false := by
  cases k with
  | zero => rfl
  | succ k => simp [drive, List.getD_eq_getElem?_getD, List.getElem?_append, Nat.lt_of_succ_le hk, PortIn.idle]

/-- So do those of any driven commands at their first edge, if the pins that follow do. -/
theorem driveAll_headD_rst_low (cs : List Command) {ps : List PortIn} (hps : (ps.headD PortIn.idle).rst = false) :
    ((driveAll cs ++ ps).headD PortIn.idle).rst = false := by
  cases cs with
  | nil => exact hps
  | cons c cs => rfl

theorem accepts_of_inputs_drive {s : State} {c : Command} {ps : List PortIn} (hbusy : s.busy = false)
    (hcut : s.resetCutShort = false) (hin : s.inputs = drive c ++ ps) : Claims.Accepts s c := by
  have hpins : s.pinsIn = PortIn.present c := by rw [State.pinsIn, hin]; rfl
  simp [Claims.Accepts, hpins, hbusy, hcut, PortIn.present]

end Sys2Proof.Machine

namespace Sys2Proof.Claims

open Sys2Proof.Machine

/-- Settles O3: the word of an instruction determines it, and the data too where it takes an operand. -/
theorem decodeEncodeAgree : Obligations.DecodeEncodeAgree := by
  refine ⟨fun i _ => ⟨decode_encode i, ?_⟩, fun c i h => ⟨wellFormed_all i, eq_encode_of_decode h⟩⟩
  simp only [decodeTableWord, commandOfWord_72, decode_encode]

/-- Settles O28: the command is in flight for its latency, and one edge more answers it. -/
theorem responseComesExactlyAfterLatency : Obligations.ResponseComesExactlyAfterLatency := by
  intro s c hacc hlow
  refine ⟨fun k hk hlat => ?_, ?_⟩
  · obtain ⟨t, hrun, -, ht⟩ :=
      serves_runEdges hacc hk hlat fun j hj hlt => hlow j hj (Nat.le_trans (Nat.le_of_lt hlt) hlat)
    exact ⟨t, hrun, ht.busy, by simp [State.cmdReady, ht.busy], presented_of_rsp_none ht.rsp_none, ht.regs_eq⟩
  · obtain ⟨t, hrun, -, ht⟩ := answers_runEdges hacc hlow
    have hbusy := busy_eq_false_iff.mpr ht.inflight_none
    obtain ⟨u, hu⟩ := exists_step_of_not_resetCutShort (resetCutShort_of_rstEdges_zero ht.rstEdges_zero)
    refine ⟨t, hrun, hbusy, ht.regs_eq, ht.rsp_eq, runEdges_inputs hrun, fun hrst => ?_, u, hu,
      step_rsp_of_idle hu ht.inflight_none⟩
    have hready : t.cmdReady = true := by simp [State.cmdReady, hrst, hbusy]
    exact ⟨hready, by simp [State.pinsOut, presented_of_rst_low hrst, ht.rsp_eq, hready]⟩

/-- Settles O32, by induction on the commands: each is accepted, answered after its latency, and leaves the port free
for the pins that follow. -/
theorem drivenPortRefinesTransactions : Obligations.DrivenPortRefinesTransactions := by
  intro cs
  induction cs with
  | nil => exact fun s rest hbusy _ hin _ => ⟨rfl, s, rfl, rfl, hbusy, hin⟩
  | cons c cs ih =>
    intro s rest hbusy hcut hin hrest
    rw [driveAll_cons, List.append_assoc] at hin
    obtain ⟨t, hrun, hseen, ht⟩ := answers_runEdges (accepts_of_inputs_drive hbusy hcut hin) fun k _ hk => by
      rw [sample, hin]; exact drive_rst_low c _ hk
    have htin : t.inputs = driveAll cs ++ rest := by
      rw [runEdges_inputs hrun, hin, ← length_drive, List.drop_left]
    have htlow : t.pinsIn.rst = false := by rw [State.pinsIn, htin]; exact driveAll_headD_rst_low cs hrest
    obtain ⟨hseen', u, hrun', hregs, hfree, huin⟩ := ih t rest (busy_eq_false_iff.mpr ht.inflight_none)
      (resetCutShort_of_rstEdges_zero ht.rstEdges_zero) htin hrest
    rw [driveAll_cons, List.length_append, length_drive, responsesSeen_add hrun, runEdges_add hrun]
    rw [ht.regs_eq] at hseen' hregs
    refine ⟨?_, u, hrun', hregs, hfree, huin⟩
    rw [hseen, hseen', presented_of_rst_low htlow, ht.rsp_eq]
    rfl

/-- Settles O2: illegal is what `Command.legal` refuses, and that depends on the word alone. -/
theorem illegalWordsAreTheOther251 : Obligations.IllegalWordsAreTheOther251 := by
  refine ⟨fun c => ?_, fun d => ?_, legal_iff_decode_ok, ?_⟩
  · rw [← legal_eq_false_iff_decode_error, legal_eq_false_iff]
  · simp only [isOk_decode, legal_words]
  · rintro c s ⟨e, he⟩ hacc
    rw [step_of_accepts hacc, acceptCommand_error he]
    rfl

/-- Settles O6: the line is read as the instruction's mnemonic and the number of its data. -/
theorem scriptLineRoundTrip : Obligations.ScriptLineRoundTrip :=
  fun i => ⟨operandOf i, parseLine_printInstr i, wellFormed_scriptLineOf i, lineInstr_operandOf [] i⟩

/-- Settles O7, by induction on the instructions, once every line is parsed. -/
theorem scriptRunsAsItsCommands : Obligations.ScriptRunsAsItsCommands := by
  intro is r
  have hparse : (is.mapM fun i => parseLine (printInstr i)) = some (is.map scriptLineOf) := by
    simp only [parseLine_printInstr]
    exact List.mapM_pure
  rw [hparse]
  exact runScript_map_scriptLineOf is [] r

/-- Settles O1: each word has `rsv` = 0, so the opcode map of R67 reads its low three bits. -/
theorem opcodeMapWords : Obligations.OpcodeMapWords := by
  intro d
  simp [decode, decodeOpc, rsvField, opcField]

/-- Settles O4: an accepting edge runs what the decoder reads, at the clocked state. -/
theorem stepRunsDecodedInstruction : Obligations.StepRunsDecodedInstruction := by
  intro s c i hacc hdec
  rw [step_of_accepts hacc, acceptCommand_ok hdec]
  rfl

/-- Settles O5: the word at the pins is accepted and decodes to its instruction. -/
theorem fetchedWordRunsItsInstruction : Obligations.FetchedWordRunsItsInstruction := by
  intro s i _
  rw [step_of_accepts (accepts_withFetchWord s 72 _), commandOfWord_72, acceptCommand_ok (decode_encode i)]
  rfl

/-- Settles O29: the two states differ only in pins that the edge does not read. -/
theorem commandPinsIgnoredWhileBusy : Obligations.CommandPinsIgnoredWhileBusy := by
  intro s op d v hbusy hlow
  obtain ⟨f, hf⟩ := Option.isSome_iff_exists.mp hbusy
  exact step_eq_of_busy hf hlow rfl rfl rfl

/-- Settles O30, from the two definitions: `rst` = 1 alone takes away readiness and the response. -/
theorem readyAndOutputsInReset : Obligations.ReadyAndOutputsInReset := by
  refine fun s => ⟨by simp [State.cmdReady], fun hrst => ?_⟩
  have hnone : s.presented = none := by simp [State.presented, hrst]
  simp [State.pinsOut, hnone, State.cmdReady, hrst]

end Sys2Proof.Claims

/-! SUPPORT. The family of 40_advance.md: the LCG step in natural numbers and its period, the mixer and the barrel
shifter bit by bit, what NEXT32 answers; the obligations are settled from these. -/

namespace Sys2Proof.Machine

/-! ## The LCG step in natural numbers (40_advance.md R101) -/

theorem or_one_bit_zero (inc : Word) : (inc ||| 1#64).getLsbD 0 = true := by simp

theorem or_one_bit_of_pos (inc : Word) {i : Nat} (hi : 1 ≤ i) : (inc ||| 1#64).getLsbD i = inc.getLsbD i := by
  simp [BitVec.getLsbD_one, Nat.ne_of_gt hi]

theorem or_one_of_bit_zero {inc : Word} (h : inc.getLsbD 0 = true) : inc ||| 1#64 = inc := by
  refine BitVec.eq_of_getLsbD_eq fun i _ => ?_
  cases i with
  | zero => rw [or_one_bit_zero, h]
  | succ i => exact or_one_bit_of_pos inc (Nat.succ_pos i)

theorem odd_or_one (inc : Word) : Odd (inc ||| 1#64).toNat :=
  Nat.odd_iff.mpr (Nat.mod_two_eq_one_iff_testBit_zero.mpr (or_one_bit_zero inc))

/-- An affine map with the multiplier `m + 1`. -/
def affine (m c x : Nat) : Nat := (m + 1) * x + c

/-- `MULT` less one, a multiple of 4. -/
def multLessOne : Nat := 6364136223846793004

theorem toNat_lcgNext (old inc : Word) :
    (lcgNext old inc).toNat = affine multLessOne (inc ||| 1#64).toNat old.toNat % 2 ^ 64 := by
  simp [lcgNext, affine, multLessOne, Config.MULT, BitVec.toNat_add, BitVec.toNat_mul]

/-! ## The period (R109)

Iterating an affine map adds a geometric sum times `m x + c`. For `m` a multiple of 4 and `c` odd the second factor is
odd, and the sum of `n` powers of `m + 1` holds as many factors 2 as `n`. -/

theorem iterate_affine (m c x n : Nat) :
    (affine m c)^[n] x = x + (∑ i ∈ Finset.range n, (m + 1) ^ i) * (m * x + c) := by
  induction n with
  | zero => simp
  | succ n ih =>
    rw [Function.iterate_succ_apply', ih, geom_sum_succ, affine]
    ring

/-- Lifting the exponent: `(m + 1)^n - 1` is the sum times `m`, and holds the factors 2 of `m` and of `n`. -/
theorem emultiplicity_two_geom_sum {m : Nat} (hm : m ≠ 0) (h4 : 4 ∣ m) (n : Nat) :
    emultiplicity (2 : ℤ) (∑ i ∈ Finset.range n, ((m : ℤ) + 1) ^ i) = emultiplicity (2 : ℤ) n := by
  have hodd : ¬ (2 : ℤ) ∣ (m : ℤ) + 1 := by omega
  have h4' : (4 : ℤ) ∣ (m : ℤ) + 1 - 1 := by omega
  have hlift : emultiplicity (2 : ℤ) (((m : ℤ) + 1) ^ n - 1 ^ n) =
      emultiplicity (2 : ℤ) ((m : ℤ) + 1 - 1) + emultiplicity (2 : ℤ) n := Int.two_pow_sub_pow' n h4' hodd
  rw [one_pow, add_sub_cancel_right, ← geom_sum_mul_add, add_sub_cancel_right, emultiplicity_mul Int.prime_two,
    add_comm] at hlift
  have hfin : FiniteMultiplicity (2 : ℤ) m :=
    Int.finiteMultiplicity_iff.mpr ⟨by decide, Int.natCast_ne_zero.mpr hm⟩
  exact ENat.add_right_injective_of_ne_top (finiteMultiplicity_iff_emultiplicity_ne_top.mp hfin) hlift

theorem two_pow_dvd_geom_sum_iff {m : Nat} (hm : m ≠ 0) (h4 : 4 ∣ m) (k n : Nat) :
    2 ^ k ∣ ∑ i ∈ Finset.range n, (m + 1) ^ i ↔ 2 ^ k ∣ n := by
  have h := emultiplicity_two_geom_sum hm h4 n
  rw [← Int.natCast_dvd_natCast, ← Int.natCast_dvd_natCast]
  push_cast
  rw [pow_dvd_iff_le_emultiplicity, pow_dvd_iff_le_emultiplicity, h]

/-- Modulo a power of two the orbit of every point has full length. -/
theorem iterate_affine_modEq_iff {m c : Nat} (hm : m ≠ 0) (h4 : 4 ∣ m) (hc : Odd c) (k x n : Nat) :
    (affine m c)^[n] x ≡ x [MOD 2 ^ k] ↔ 2 ^ k ∣ n := by
  have heven : Even m := even_iff_two_dvd.mpr (Nat.dvd_trans (by decide) h4)
  have hcoprime : Nat.Coprime (2 ^ k) (m * x + c) :=
    (Nat.coprime_two_left.mpr ((heven.mul_right x).add_odd hc)).pow_left k
  rw [iterate_affine, Nat.add_modEq_left_iff, hcoprime.dvd_mul_right, two_pow_dvd_geom_sum_iff hm h4]

theorem toNat_iterate_lcgNext (inc x : Word) (n : Nat) :
    ((fun s => lcgNext s inc)^[n] x).toNat ≡ (affine multLessOne (inc ||| 1#64).toNat)^[n] x.toNat [MOD 2 ^ 64] := by
  induction n with
  | zero => exact Nat.ModEq.refl _
  | succ n ih =>
    rw [Function.iterate_succ_apply', Function.iterate_succ_apply', toNat_lcgNext]
    exact (Nat.mod_modEq _ _).trans ((ih.mul_left _).add_right _)

theorem iterate_lcgNext_eq_self_iff (inc x : Word) (n : Nat) :
    (fun s => lcgNext s inc)^[n] x = x ↔ 2 ^ 64 ∣ n := by
  have hiter := toNat_iterate_lcgNext inc x n
  rw [← iterate_affine_modEq_iff (m := multLessOne) (by decide) (by decide) (odd_or_one inc) 64 x.toNat n]
  constructor
  · intro h
    rw [h] at hiter
    exact hiter.symm
  · intro h
    exact BitVec.eq_of_toNat_eq ((hiter.trans h).eq_of_lt_of_lt (BitVec.isLt _) x.isLt)

/-! ## The mixer (R102, R107) -/

theorem xshMix_eq_extractLsb' (old : Word) : xshMix old = ((old >>> 18) ^^^ old).extractLsb' 27 32 := by
  rw [xshMix, u32, BitVec.setWidth_ushiftRight_eq_extractLsb]

/-- Bits 58 to 27 of the old state, and its top 19 bits over the low ones of them. -/
theorem xshMix_eq_xor (old : Word) :
    xshMix old = old.extractLsb' 27 32 ^^^ (old.extractLsb' 45 19).setWidth 32 := by
  refine BitVec.eq_of_getLsbD_eq fun i hi => ?_
  have hsum : 18 + (27 + i) = 45 + i := by omega
  have htop : (decide (i < 19) && old.getLsbD (45 + i)) = old.getLsbD (45 + i) := by
    by_cases h : i < 19
    · simp [h]
    · simp [BitVec.getLsbD_of_ge old (45 + i) (by omega)]
  simp [xshMix_eq_extractLsb', hi, hsum, htop, Bool.xor_comm]

theorem getLsbD_xshMix_of_le {i : Nat} (hi : i ≤ 18) (old : Word) :
    (xshMix old).getLsbD i = (old.getLsbD (i + 27) ^^ old.getLsbD (i + 45)) := by
  have h19 : i < 19 := by omega
  have h32 : i < 32 := by omega
  simp [xshMix_eq_xor, h19, h32, Nat.add_comm]

theorem getLsbD_xshMix_of_ge {i : Nat} (hi : 19 ≤ i) (h31 : i ≤ 31) (old : Word) :
    (xshMix old).getLsbD i = old.getLsbD (i + 27) := by
  have h19 : ¬ i < 19 := by omega
  have h32 : i < 32 := by omega
  simp [xshMix_eq_xor, h19, h32, Nat.add_comm]

/-- A field above bit 27 is a field of the state shifted right by 27. -/
theorem extractLsb'_of_shiftRight_27 (old : Word) (start len : Nat) :
    (old >>> 27).extractLsb' start len = old.extractLsb' (27 + start) len := by
  refine BitVec.eq_of_getLsbD_eq fun i _ => ?_
  simp [Nat.add_assoc]

/-- The output reads no bit below 27. -/
theorem advanceOutput_congr {a b : Word} (h : a >>> 27 = b >>> 27) : advanceOutput a = advanceOutput b := by
  have hfield (start len : Nat) : a.extractLsb' (27 + start) len = b.extractLsb' (27 + start) len := by
    rw [← extractLsb'_of_shiftRight_27, ← extractLsb'_of_shiftRight_27, h]
  rw [advanceOutput, advanceOutput, xshMix_eq_xor, xshMix_eq_xor, rotAmount, rotAmount, hfield 0 32, hfield 18 19,
    hfield 32 5]

/-! ## The barrel shifter (R103, R104) -/

theorem toNat_rotAmount (old : Word) : (rotAmount old).toNat = (old >>> 59).toNat := by
  have hlt : old.toNat / 2 ^ 59 < 2 ^ 5 := by have := old.isLt; omega
  rw [rotAmount, BitVec.extractLsb'_toNat, BitVec.toNat_ushiftRight, Nat.shiftRight_eq_div_pow, Nat.mod_eq_of_lt hlt]

theorem rotr32_eq_shifts (x : Draw) (r : BitVec 5) :
    rotr32 x r = (x >>> r.toNat) ||| (x <<< ((32 - r.toNat) % 32)) := by
  have hamount : ∀ r : BitVec 5, ((-(r.setWidth 32)) &&& 31#32).toNat = (32 - r.toNat) % 32 := by decide
  rw [rotr32, hamount]

theorem rotr32_zero (x : Draw) : rotr32 x 0#5 = x := by simp [rotr32_eq_shifts]

theorem zero_rotr32 (r : BitVec 5) : rotr32 0#32 r = 0#32 := by simp [rotr32]

/-- The two forms differ at amount 0 alone, where the left shift is by 0 in one and by 32 in the other. -/
theorem rotr32_eq_rotateRight (x : Draw) (r : BitVec 5) : rotr32 x r = x.rotateRight r.toNat := by
  by_cases h : r = 0#5
  · rw [h, rotr32_zero]
    simp [BitVec.rotateRight_def]
  · have hlt := r.isLt
    have hpos : r.toNat ≠ 0 := fun h0 => h (BitVec.eq_of_toNat_eq h0)
    rw [rotr32_eq_shifts, BitVec.rotateRight_def, Nat.mod_eq_of_lt (by omega : r.toNat < 32),
      Nat.mod_eq_of_lt (by omega : 32 - r.toNat < 32)]

theorem getLsbD_rotr32 (x : Draw) (r : BitVec 5) {i : Nat} (hi : i ≤ 31) :
    (rotr32 x r).getLsbD i = x.getLsbD ((i + r.toNat) % 32) := by
  have hr : r.toNat < 32 := r.isLt
  rw [rotr32_eq_rotateRight, BitVec.getLsbD_rotateRight_of_lt hr]
  by_cases h : i < 32 - r.toNat
  · have hmod : (i + r.toNat) % 32 = r.toNat + i := by omega
    simp [h, hmod]
  · have hmod : (i + r.toNat) % 32 = i - (32 - r.toNat) := by omega
    have hi' : i < 32 := by omega
    simp [h, hi', hmod]

theorem rotateRight_31_eq_rotateLeft_1 (x : Draw) : x.rotateRight 31 = x.rotateLeft 1 := by
  rw [BitVec.rotateRight_def, BitVec.rotateLeft_def, BitVec.or_comm]

/-! ## NEXT32 (R106, R108) -/

theorem lcgNext_eq (old inc : Word) : lcgNext old inc = old * 0x5851F42D4C957F2D#64 + (inc ||| 1#64) := by
  rw [lcgNext, BitVec.mul_comm]
  rfl

theorem advanceOutput_eq (old : Word) :
    advanceOutput old =
      ((((old >>> 18) ^^^ old) >>> 27).setWidth 32).rotateRight (old >>> 59).toNat := by
  rw [advanceOutput, rotr32_eq_rotateRight, toNat_rotAmount]
  rfl

theorem advanceOutput_of_fields_zero {old : Word} (h27 : old.extractLsb' 27 32 = 0#32)
    (h45 : old.extractLsb' 45 19 = 0#19) : advanceOutput old = 0#32 := by
  have hmix : xshMix old = 0#32 := by simp [xshMix_eq_xor, h27, h45]
  rw [advanceOutput, hmix, zero_rotr32]

theorem advanceOutput_zero : advanceOutput 0#64 = 0#32 := advanceOutput_of_fields_zero (by decide) (by decide)

theorem next32Effect_eq (r : Registers) :
    next32Effect r =
      (⟨(advanceOutput r.state).setWidth 64, false⟩, { r with state := lcgNext r.state r.inc }) := rfl

/-! ## What an instruction leaves unchanged -/

theorem instrEffect_readOnly {i : Instr} (hi : i = .getseed ∨ i = .getstate) (r : Registers) :
    (instrEffect i r).2 = r := by
  obtain rfl | rfl := hi <;> rfl

end Sys2Proof.Machine

namespace Sys2Proof.Claims

open Sys2Proof.Machine

/-- Settles O13: modulo 2^64 the step is an affine map with an odd addend and a multiplier 1 above a multiple of 4. -/
theorem lcgStepHasFullPeriod : Obligations.LcgStepHasFullPeriod := iterate_lcgNext_eq_self_iff

/-- Settles O12: the period of O13 leads two states with one successor back to one state. -/
theorem lcgStepIsInjective : Obligations.LcgStepIsInjective := by
  intro inc a b h
  have hperiodic (x : Word) : Function.IsPeriodicPt (fun s => lcgNext s inc) (2 ^ 64) x :=
    (iterate_lcgNext_eq_self_iff inc x (2 ^ 64)).mpr dvd_rfl
  exact (hperiodic a).eq_of_apply_eq_same (hperiodic b) (Nat.two_pow_pos 64) h

/-- Settles O8: the affine map of the step, with its multiplier put second. -/
theorem lcgStepIsExactModulo : Obligations.LcgStepIsExactModulo := by
  refine ⟨fun old inc => ?_,
    fun inc => ⟨or_one_bit_zero inc, fun _ => or_one_bit_of_pos inc, or_one_of_bit_zero⟩, rfl⟩
  rw [toNat_lcgNext, affine, Nat.mul_comm, multLessOne]

/-- Settles O9: the mixer is the XOR of two fields of the old state, the upper one only 19 bits wide. -/
theorem mixerBitByBit : Obligations.MixerBitByBit :=
  ⟨fun old => ⟨rfl, xshMix_eq_extractLsb' old⟩, fun old _ hi => getLsbD_xshMix_of_le hi old,
    fun old _ hi h31 => getLsbD_xshMix_of_ge hi h31 old, fun _ _ => advanceOutput_congr⟩

/-- Settles O10: the shifter is the library's rotation to the right. -/
theorem barrelShifterRotates : Obligations.BarrelShifterRotates :=
  ⟨fun old => ⟨toNat_rotAmount old, Nat.le_of_lt_succ (rotAmount old).isLt⟩, rotr32_eq_shifts,
    fun x r _ => getLsbD_rotr32 x r, rotr32_zero⟩

/-- Settles O11: `advanceOutput` reads `STATE` alone, and a stream of draws has no GETSEED. -/
theorem outputDependsOnOldStateAlone : Obligations.OutputDependsOnOldStateAlone := by
  refine ⟨fun r q h => ?_, fun _ => advanceOutput_of_fields_zero, advanceOutput_zero, fun r q n hstate hinc => ?_⟩
  · rw [next32Effect_eq, next32Effect_eq, h]
  · have hdraws : ∀ c ∈ draws n, decode c ≠ .ok .getseed := by
      intro c hc
      rw [List.eq_of_mem_replicate hc]
      decide
    exact (stream_agreeOffSeed hdraws ⟨hstate, hinc⟩).1

/-- Settles O14: the corner cases are those of the mixer word and of the rotation amount. -/
theorem next32Result : Obligations.Next32Result := by
  refine ⟨fun d => (opcodeMapWords d).1, fun s => ?_, fun r hzero => ?_, fun r hrot => ?_, fun r hrot => ?_,
    fun r hones => ?_, ?_⟩
  · rw [exec_eq, instrEffect, next32Effect_eq, lcgNext_eq, advanceOutput_eq]
    rfl
  · rw [next32Effect_eq, hzero, advanceOutput_zero, lcgNext_zero]
    refine ⟨rfl, fun hodd => ?_, fun hreset => ?_⟩
    · rw [or_one_of_bit_zero hodd]
    · have hinc : Registers.reset.inc ||| 1#64 = 0x280AF6FDEECF029F#64 := by decide
      rw [hreset, hinc]
  · have hamount : rotAmount r.state = 0#5 := hrot
    rw [next32Effect_eq, advanceOutput, hamount, rotr32_zero]
    rfl
  · have hamount : rotAmount r.state = 31#5 := hrot
    rw [next32Effect_eq, advanceOutput, hamount, rotr32_eq_rotateRight]
    exact congrArg (BitVec.setWidth 64) (rotateRight_31_eq_rotateLeft_1 _)
  · have hout : advanceOutput 0xFFFFFFFFFFFFFFFF#64 = 0xFFF00001#32 := by decide
    rw [next32Effect_eq, hones, hout]
    exact ⟨by decide, by decide, rfl⟩
  · decide

/-- Settles O24, from what putting a response in flight leaves unchanged and from which registers an instruction
writes. -/
theorem instructionFrames : Obligations.InstructionFrames := by
  intro i s t h
  rw [exec_eq] at h
  cases h
  refine ⟨rfl, rfl, rfl, rfl, rfl, fun hseed => ⟨?_, ?_⟩, fun hread => instrEffect_readOnly hread s.regs⟩
  · by_contra hinc
    obtain ⟨d, hd, -⟩ := instrEffect_inc_changed hinc
    exact hseed d hd
  · by_contra hchanged
    obtain ⟨d, hd, -⟩ := instrEffect_seed_changed hchanged
    exact hseed d hd

end Sys2Proof.Claims

/-! SUPPORT. The family of 41_seed_state.md: the values that SEED computes, what the access commands answer, which
streams keep `SEED` and `INC`; the obligations are settled from these. -/

namespace Sys2Proof.Machine

/-! ## A command in flight -/

/-- An instruction's next state, field by field. -/
theorem exec_eq_inFlightState (i : Instr) (s : State) :
    exec i s = .next (Claims.inFlightState s (instrEffect i s.regs).2 (instrEffect i s.regs).1 (instrLatency i)
      (instrStages i)) :=
  exec_eq i s

/-- The port accepts nothing while a command is in flight (30_encoding.md R61, R62). -/
theorem accepts_nothing_of_busy {s : State} (h : s.busy = true) : s.cmdReady = false ∧ ∀ c, s.event ≠ .command c := by
  refine ⟨by simp [State.cmdReady, h], fun c he => ?_⟩
  obtain ⟨-, -, -, -, hidle, -⟩ := event_command_iff_accepts.mp he
  simp [h] at hidle

/-! ## The values of SEED (41_seed_state.md R130, R131) -/

/-- `SEED d` in closed form. The addend of the second advance is `INC_SEEDED`, whose bit 0 is set. -/
theorem seedEffect_eq (d : Word) :
    seedEffect d = (⟨0#64, false⟩, ⟨(0x280AF6FDEECF029F#64 + d) * 0x5851F42D4C957F2D#64 + 0x280AF6FDEECF029F#64,
      0x280AF6FDEECF029F#64, d⟩) := by
  have hodd : 0x280AF6FDEECF029F#64 ||| 1#64 = 0x280AF6FDEECF029F#64 := or_one_of_bit_zero (by decide)
  rw [seedEffect, seedMixSeed_eq, inc_seeded_value, lcgNext_eq, hodd]
  rfl

theorem seedStages_eq (d : Word) : seedStages d = ⟨0x280AF6FDEECF029F#64, 0x280AF6FDEECF029F#64 + d⟩ := by
  rw [seedStages, seedMixIncrement_eq, seedAddSeed_eq, inc_seeded_value]

/-- A sum modulo 2^64 lies below its second term exactly where it wraps. -/
theorem add_lt_right_iff (a d : Word) : a + d < d ↔ 2 ^ 64 - 1 - a.toNat < d.toNat := by
  rw [BitVec.lt_def, BitVec.toNat_add]
  omega

/-! ## A draw after SETSTATE (R133) -/

/-- The draw reads the `STATE` that SETSTATE wrote. -/
theorem next32Effect_setstate (d : Word) (r : Registers) :
    next32Effect (setstateEffect d r).2 =
      (⟨(advanceOutput d).setWidth 64, false⟩, { r with state := lcgNext d r.inc }) := rfl

/-! ## What streams of commands keep -/

/-- `SEED` keeps its value while no SEED is issued (10_state.md R24). -/
theorem registersAfter_seed {cs : List Command} (hcs : ∀ c ∈ cs, ∀ d, decode c ≠ .ok (.seed d)) (r : Registers) :
    (registersAfter cs r).seed = r.seed := by
  induction cs generalizing r with
  | nil => rfl
  | cons c cs ih =>
    obtain ⟨hc, hcs⟩ := List.forall_mem_cons.mp hcs
    have hkept : (transact c r).2.seed = r.seed := by
      cases hd : decode c with
      | ok i =>
        rw [transact_ok hd]
        by_contra hchanged
        obtain ⟨d, rfl, -⟩ := instrEffect_seed_changed hchanged
        exact hc d hd
      | error e => rw [transact_error hd]
    exact (ih hcs _).trans hkept

/-- No stream of commands moves `INC` away from `INC_SEEDED` (R22, R23). -/
theorem registersAfter_inc (cs : List Command) {r : Registers} (h : r.inc = Config.INC_SEEDED) :
    (registersAfter cs r).inc = Config.INC_SEEDED := by
  induction cs generalizing r with
  | nil => exact h
  | cons c cs ih => exact ih ((transact_inc c r).elim (·.trans h) id)

/-- A stream that ends in `SEED d` leaves what that SEED computes. -/
theorem registersAfter_append_seed (cs : List Command) (d : Word) (r : Registers) :
    registersAfter (cs ++ [encode (.seed d)]) r = (seedEffect d).2 := by
  rw [registersAfter_append, registersAfter, transact_ok (decode_encode _), instrEffect_seed, registersAfter]

end Sys2Proof.Machine

namespace Sys2Proof.Claims

open Sys2Proof.Machine

/-- Settles O15: SEED in closed form is put in flight, and the worked values are evaluated. -/
theorem seedResult : Obligations.SeedResult := by
  refine ⟨fun d => ?_, fun d s => ?_, fun d s t h => ?_, fun d => ?_, inc_seeded_value, ?_⟩
  · obtain ⟨-, hseed, -⟩ := opcodeMapWords d
    exact hseed
  · rw [exec_eq_inFlightState, instrEffect_seed, seedEffect_eq, instrStages, seedStages_eq]
    rfl
  · obtain ⟨-, -, -, -, hbusy, -⟩ := instructionFrames _ s t h
    exact accepts_nothing_of_busy hbusy
  · rw [seedAddSeed_eq, inc_seeded_value]
    exact add_lt_right_iff _ d
  · simp only [seedMixSeed_eq, seedAddSeed_eq]
    decide

/-- Settles O16: NEXT32 and SETSTATE are no SEED, so they keep `SEED`. -/
theorem getseedResult : Obligations.GetseedResult := by
  refine ⟨fun d => ?_, fun s => exec_eq_inFlightState .getseed s, rfl, fun d r cs hcs => ⟨?_, rfl⟩⟩
  · obtain ⟨-, -, hgetseed, -⟩ := opcodeMapWords d
    exact hgetseed
  · have hnoSeed : ∀ c ∈ cs, ∀ v, decode c ≠ .ok (.seed v) := by
      intro c hc v
      obtain hdec | ⟨w, hdec⟩ := hcs c hc <;> simp [hdec]
    rw [getseedEffect, registersAfter_seed hnoSeed, seedEffect_eq]
    rfl

/-- Settles O17: the corner case and the worked example are the output and the successor of the operand. -/
theorem setstateResult : Obligations.SetstateResult := by
  have hout : advanceOutput 0x0123456789ABCDEF#64 = 0x2468A5EB#32 := by decide
  have hnext : lcgNext 0x0123456789ABCDEF#64 0x280AF6FDEECF029F#64 = 0x40E8A8A22D46C6A2#64 := by decide
  refine ⟨fun d => ?_, fun d s => exec_eq_inFlightState (.setstate d) s, fun r => ?_,
    fun r => ⟨?_, by decide, fun hinc => ?_⟩⟩
  · obtain ⟨-, -, -, hsetstate, -⟩ := opcodeMapWords d
    exact hsetstate
  · rw [next32Effect_setstate, advanceOutput_zero]
    rfl
  · rw [next32Effect_setstate, hout]
    rfl
  · rw [next32Effect_setstate, hinc, hnext]

/-- Settles O18: the second worked value is the closed form of SEED. -/
theorem getstateResult : Obligations.GetstateResult := by
  refine ⟨fun d => ?_, fun s => exec_eq_inFlightState .getstate s, rfl, ?_⟩
  · obtain ⟨-, -, -, -, hgetstate, -⟩ := opcodeMapWords d
    exact hgetstate
  · rw [seedEffect_eq]
    decide

/-- Settles O20: what SEED computes and holds in flight is a function of its data alone. -/
theorem seedIgnoresEarlierState : Obligations.SeedIgnoresEarlierState := by
  intro d s t cs ds
  refine ⟨_, _, exec_eq (.seed d) s, exec_eq (.seed d) t, ?_, ?_, ?_⟩
  · simp only [respond_regs, instrEffect_seed]
  · simp only [respond_inflight, instrEffect_seed]
  · rw [registersAfter_append_seed, registersAfter_append_seed]

/-- Settles O21: draws depend on `STATE`, which SETSTATE restores, and on `INC`. -/
theorem checkpointRestoreRepeatsDraws : Obligations.CheckpointRestoreRepeatsDraws := by
  obtain ⟨-, -, -, hdraws⟩ := outputDependsOnOldStateAlone
  exact ⟨fun _ _ => rfl, fun r cs n hinc => hdraws _ _ n rfl hinc,
    fun r cs h => (registersAfter_inc cs h).trans h.symm⟩

end Sys2Proof.Claims

/-! SUPPORT. The family of 45_host_sequences.md: what the host sequences draw, answer and issue, and the binary32 and
binary64 arithmetic of their floating-point values; the obligations are settled from these. -/

namespace Sys2Proof.Machine

/-! ## Draws of the host, one after another -/

theorem encode_next32 : encode .next32 = Claims.next32Command := by decide

theorem encode_getstate : encode .getstate = ⟨0x05#8, 0#64⟩ := by decide

/-- A draw in the words of the statements: the draw seen next, and the host after one draw. -/
theorem draw_eq_drawSeen (h : HostState) : draw h = ⟨.value (Claims.drawSeen 0 h), Claims.afterDraws 1 h⟩ := by
  rw [draw_eq, encode_next32]
  rfl

theorem afterDraws_eq_afterCommands (k : Nat) (h : HostState) :
    Claims.afterDraws k h = h.afterCommands (Claims.draws k) := by
  induction k generalizing h with
  | zero => rfl
  | succ k ih => exact ih (h.afterCommand Claims.next32Command)

@[simp] theorem afterDraws_issued (k : Nat) (h : HostState) :
    (Claims.afterDraws k h).issued = h.issued ++ Claims.draws k := by
  rw [afterDraws_eq_afterCommands, afterCommands_eq, HostState.issued, requesterCommands_append,
    requesterCommands_zero_arbitrated, HostState.issued]

/-- Where no list of others' commands is left, the stream holds the own commands alone. -/
theorem arbitrated_alone (own : List Command) : arbitrated own [] = own.map fun c => (0, c) := by
  induction own with
  | nil => rfl
  | cons c cs ih => simp [arbitrated, ih]

theorem afterDraws_alone (k : Nat) {h : HostState} (ho : h.others = []) :
    Claims.afterDraws k h =
      ⟨registersAfter (Claims.draws k) h.regs, [], h.served ++ (Claims.draws k).map fun c => (0, c)⟩ := by
  rw [afterDraws_eq_afterCommands, afterCommands_eq, ho, arbitrated_alone]
  simp [Function.comp_def]

theorem drawSeen_alone (k : Nat) {h : HostState} (ho : h.others = []) :
    Claims.drawSeen k h = advanceOutput (registersAfter (Claims.draws k) h.regs).state := by
  rw [Claims.drawSeen, afterDraws_alone k ho, arbitrate_alone rfl]

/-! ## A sequence that goes on with a value -/

section AndThen
variable {α β : Type} {x : SeqRun α} {f : α → HostState → SeqRun β}

theorem andThen_of_value {a : α} (h : x.ending = .value a) : x.andThen f = f a x.host := by
  simp only [SeqRun.andThen, h]

/-- A value comes from a value of the first part. -/
theorem exists_value_of_andThen {b : β} (h : (x.andThen f).ending = .value b) :
    ∃ a, x.ending = .value a ∧ (f a x.host).ending = .value b := by
  obtain ⟨ex, g⟩ := x
  cases ex with
  | value a => exact ⟨a, rfl, h⟩
  | fault e => cases h
  | refused e => cases h

theorem andThen_done_host (x : SeqRun α) (g : α → β) : (x.andThen fun a h => h.done (g a)).host = x.host := by
  obtain ⟨ex, h⟩ := x
  cases ex <;> rfl

end AndThen

/-! ## BOUNDED (45_host_sequences.md R151 to R154) -/

theorem umod_lt {b : BitVec 32} (hb : b ≠ 0#32) (x : BitVec 32) : x % b < b :=
  BitVec.umod_lt x (BitVec.toNat_pos_of_ne_zero hb)

theorem toNat_boundThreshold {b : BitVec 32} (hb : b ≠ 0#32) :
    (boundThreshold b).toNat = (2 ^ 32 - b.toNat) % b.toNat := by
  have hpos := BitVec.toNat_pos_of_ne_zero hb
  rw [boundThreshold, BitVec.toNat_umod, BitVec.toNat_neg, Nat.mod_eq_of_lt (by omega : 2 ^ 32 - b.toNat < 2 ^ 32)]

/-- The loop takes the first draw that is not below the threshold, or its fuel ends before one. -/
theorem rejectionLoop_cases (fuel : Nat) (b : BitVec 32) (h : HostState) :
    (∃ k < fuel, boundThreshold b ≤ Claims.drawSeen k h ∧ (∀ m < k, Claims.drawSeen m h < boundThreshold b) ∧
      rejectionLoop fuel b h = ⟨.value (Claims.drawSeen k h % b), Claims.afterDraws (k + 1) h⟩) ∨
    ((∀ m < fuel, Claims.drawSeen m h < boundThreshold b) ∧
      rejectionLoop fuel b h = ⟨.refused .outOfFuel, Claims.afterDraws fuel h⟩) := by
  induction fuel generalizing h with
  | zero => exact .inr ⟨by simp, rfl⟩
  | succ fuel ih =>
    by_cases hr : boundThreshold b ≤ Claims.drawSeen 0 h
    · refine .inl ⟨0, fuel.succ_pos, hr, by simp, ?_⟩
      simp [rejectionLoop, draw_eq_drawSeen, hr, HostState.done]
    · have hstep : rejectionLoop (fuel + 1) b h = rejectionLoop fuel b (Claims.afterDraws 1 h) := by
        simp [rejectionLoop, draw_eq_drawSeen, hr]
      have hfirst : Claims.drawSeen 0 h < boundThreshold b := BitVec.not_le.mp hr
      rw [hstep]
      obtain ⟨k, hk, hacc, hrej, hrun⟩ | ⟨hrej, hrun⟩ := ih (Claims.afterDraws 1 h)
      · exact .inl ⟨k + 1, Nat.succ_lt_succ hk, hacc, Nat.forall_lt_succ_left.mpr ⟨hfirst, hrej⟩, hrun⟩
      · exact .inr ⟨Nat.forall_lt_succ_left.mpr ⟨hfirst, hrej⟩, hrun⟩

theorem seqBounded_zero (fuel : Nat) (h : HostState) : seqBounded fuel 0#32 h = ⟨.fault .boundZero, h⟩ := rfl

theorem seqBounded_of_ne_zero {b : BitVec 32} (hb : b ≠ 0#32) (fuel : Nat) (h : HostState) :
    seqBounded fuel b h = rejectionLoop fuel b h := if_neg hb

/-- A value of BOUNDED is below the bound (R152). -/
theorem seqBounded_value_lt {fuel : Nat} {b v : BitVec 32} {h : HostState}
    (hv : (seqBounded fuel b h).ending = .value v) : v < b := by
  by_cases hb : b = 0#32
  · rw [hb, seqBounded_zero] at hv
    cases hv
  · rw [seqBounded_of_ne_zero hb] at hv
    obtain ⟨k, -, -, -, hrun⟩ | ⟨-, hrun⟩ := rejectionLoop_cases fuel b h <;> rw [hrun] at hv <;> cases hv
    exact umod_lt hb _

/-! ## RANGED (R155, R156) -/

section Ranged
variable {f t : BitVec 32} (fuel : Nat) (h : HostState)

theorem seqRanged_self (k : BitVec 32) : seqRanged fuel k k h = ⟨.value k, h⟩ := if_pos rfl

theorem seqRanged_of_span_zero (hne : f ≠ t) (hs : rangeSpan f t = 0#32) :
    seqRanged fuel f t h = ⟨.fault .rangeFull, h⟩ := by
  rw [seqRanged, if_neg hne, if_pos hs]
  rfl

theorem seqRanged_of_span_ne_zero (hne : f ≠ t) (hs : rangeSpan f t ≠ 0#32) :
    seqRanged fuel f t h = (seqBounded fuel (rangeSpan f t) h).andThen fun v h =>
      h.done (BitVec.ofInt 32 (min f.toInt t.toInt + v.toNat)) := by
  rw [seqRanged, if_neg hne, if_neg hs]

theorem rangeSpan_comm (f t : BitVec 32) : rangeSpan f t = rangeSpan t f := by
  rw [rangeSpan, rangeSpan, rangeDistance, rangeDistance, ← Int.natAbs_neg, neg_sub]

theorem rangeSpan_self (k : BitVec 32) : rangeSpan k k = 1#32 := by simp [rangeSpan, rangeDistance]

theorem seqRanged_comm (f t : BitVec 32) : seqRanged fuel f t h = seqRanged fuel t f h := by
  by_cases heq : f = t
  · rw [heq]
  · simp only [seqRanged, if_neg heq, if_neg (Ne.symm heq), rangeSpan_comm f t, min_comm f.toInt]

/-- The exact distance is that of the greater end from the lower one. -/
theorem rangeDistance_eq (f t : BitVec 32) :
    (rangeDistance f t : Int) = max f.toInt t.toInt - min f.toInt t.toInt := by
  rw [rangeDistance]
  omega

theorem ends_bounds (f t : BitVec 32) : -2 ^ 31 ≤ min f.toInt t.toInt ∧ max f.toInt t.toInt < 2 ^ 31 :=
  ⟨le_min f.le_toInt t.le_toInt, max_lt f.toInt_lt t.toInt_lt⟩

/-- The span wraps for the full range alone (R156). -/
theorem rangeSpan_eq_zero_iff_distance : rangeSpan f t = 0#32 ↔ rangeDistance f t + 1 = 2 ^ 32 := by
  have ⟨hlow, hhigh⟩ := ends_bounds f t
  have hd := rangeDistance_eq f t
  rw [← BitVec.toNat_inj, rangeSpan, BitVec.toNat_ofNat, BitVec.toNat_ofNat]
  omega

theorem rangeSpan_eq_zero_iff : rangeSpan f t = 0#32 ↔
    (f = 0x80000000#32 ∧ t = 0x7FFFFFFF#32) ∨ (f = 0x7FFFFFFF#32 ∧ t = 0x80000000#32) := by
  have hleast : (0x80000000#32).toInt = -2 ^ 31 := by decide
  have hgreatest : (0x7FFFFFFF#32).toInt = 2 ^ 31 - 1 := by decide
  have ⟨hlow, hhigh⟩ := ends_bounds f t
  have hd := rangeDistance_eq f t
  rw [rangeSpan_eq_zero_iff_distance]
  simp only [← BitVec.toInt_inj, hleast, hgreatest]
  omega

/-- The sum of the lower end and a value below the span is exact and lies between the ends. -/
theorem toInt_ranged_value {v : BitVec 32} (hv : v < rangeSpan f t) :
    (BitVec.ofInt 32 (min f.toInt t.toInt + v.toNat)).toInt = min f.toInt t.toInt + v.toNat ∧
      min f.toInt t.toInt + v.toNat ≤ max f.toInt t.toInt := by
  have ⟨hlow, hhigh⟩ := ends_bounds f t
  have hd := rangeDistance_eq f t
  have hle : v.toNat ≤ rangeDistance f t := by
    rw [BitVec.lt_def, rangeSpan, BitVec.toNat_ofNat] at hv
    omega
  refine ⟨BitVec.toInt_ofInt_eq_self (by decide) ?_ ?_, ?_⟩ <;> omega

end Ranged

/-! ## RANDOMIZE (45_host_sequences.md R164) -/

theorem issueCommand_eq (i : Instr) (h : HostState) :
    issueCommand (encode i) h =
      ⟨.value (instrEffect i h.arbitrate.regs).1.data, h.afterCommand (encode i)⟩ := by
  simp [issueCommand, transact_ok (decode_encode i)]

theorem seqRandomize_eq (t : Word) (h : HostState) :
    seqRandomize t h = ⟨.value (), (h.afterCommand (encode .getstate)).afterCommand
      (encode (.seed (t * h.arbitrate.regs.state + Config.DEFAULT_INC)))⟩ := by
  simp only [seqRandomize, issueCommand_eq, andThen_value]
  rfl

/-! ## NEXTF32 (R158) -/

theorem seqNextF32_of_zero {h : HostState} (he : Claims.drawSeen 0 h = 0#32) :
    seqNextF32 h = ⟨.value 0#32, Claims.afterDraws 1 h⟩ := by
  simp [seqNextF32, draw_eq_drawSeen, he, HostState.done]

/-- NEXTF32 ends with a value, after one draw of 0 or after two draws. -/
theorem seqNextF32_cases (h : HostState) :
    (Claims.drawSeen 0 h = 0#32 ∧ seqNextF32 h = ⟨.value 0#32, Claims.afterDraws 1 h⟩) ∨
    (Claims.drawSeen 0 h ≠ 0#32 ∧ ∃ z, clz32 (Claims.drawSeen 0 h) = some z ∧
      seqNextF32 h = ⟨.value (scaleDraw (mantissaOf (Claims.drawSeen 1 h)) (-32 - (z : Int))),
        Claims.afterDraws 2 h⟩) := by
  by_cases he : Claims.drawSeen 0 h = 0#32
  · exact .inl ⟨he, seqNextF32_of_zero he⟩
  · exact .inr ⟨he, _, clz32_of_ne_zero he, seqNextF32_of_ne_zero he (clz32_of_ne_zero he)⟩

/-- NEXTF32 always ends with a value, after one or two draws. -/
theorem exists_seqNextF32_eq (h : HostState) :
    ∃ u k, 1 ≤ k ∧ k ≤ 2 ∧ seqNextF32 h = ⟨.value u, Claims.afterDraws k h⟩ := by
  obtain ⟨-, hrun⟩ | ⟨-, z, -, hrun⟩ := seqNextF32_cases h
  · exact ⟨_, 1, by decide, by decide, hrun⟩
  · exact ⟨_, 2, by decide, by decide, hrun⟩

/-! ## Sequences made of NEXTF32 and a command of their own -/

theorem seqAdvance_eq (h : HostState) : seqAdvance h = ⟨.value (), Claims.afterDraws 1 h⟩ := by
  rw [seqAdvance, draw_eq_drawSeen]
  rfl

section NextF32
variable {h h1 h2 : HostState} {u u1 u2 : Binary32} (P : Config.HostParams)

theorem seqNextF64_of_seqNextF32 (hu : seqNextF32 h = ⟨.value u, h1⟩) :
    seqNextF64 P h = ⟨.value (widen64 P u), h1⟩ := by
  rw [seqNextF64, hu]
  rfl

theorem seqFrange_of_seqNextF32 (hu : seqNextF32 h = ⟨.value u, h1⟩) (f t : Binary32) :
    seqFrange P f t h = ⟨.value (widen64 P (addF32 P (mulF32 P u (subF32 P t f)) f)), h1⟩ := by
  rw [seqFrange, hu]
  rfl

theorem seqNormal_of_seqNextF32 (hu1 : seqNextF32 h = ⟨.value u1, h1⟩) (hu2 : seqNextF32 h1 = ⟨.value u2, h2⟩)
    (m d : Binary32) : seqNormal P m d h = ⟨.value (widen64 P (boxMuller P m d u1 u2)), h2⟩ := by
  rw [seqNormal, hu1, andThen_value, hu2]
  rfl

end NextF32

/-! ## How a sequence can end (R150) -/

/-- The sequence's faults are among `F`, and it never counts the leading zeros of 0. -/
structure SeqRun.FaultsWithin {α : Type} (F : Fault → Prop) (x : SeqRun α) : Prop where
  fault_within : ∀ e, x.ending = .fault e → F e
  clz_defined : x.ending ≠ .refused .leadingZerosOfZero

section FaultsWithin
variable {F : Fault → Prop} {α β : Type}

theorem faultsWithin_value (a : α) (h : HostState) : (⟨.value a, h⟩ : SeqRun α).FaultsWithin F :=
  ⟨by simp, by simp⟩

theorem SeqRun.FaultsWithin.andThen {x : SeqRun α} (hx : x.FaultsWithin F) {f : α → HostState → SeqRun β}
    (hf : ∀ a h, (f a h).FaultsWithin F) : (x.andThen f).FaultsWithin F := by
  obtain ⟨ex, h⟩ := x
  cases ex with
  | value a => exact hf a h
  | fault e => exact ⟨fun e' he' => by cases he'; exact hx.fault_within e rfl, by simp⟩
  | refused e => exact ⟨by simp, fun he => hx.clz_defined (by simpa using he)⟩

theorem faultsWithin_draw (h : HostState) : (draw h).FaultsWithin F := by
  rw [draw_eq_drawSeen]
  exact faultsWithin_value _ _

theorem faultsWithin_seqNextF32 (h : HostState) : (seqNextF32 h).FaultsWithin F := by
  obtain ⟨u, k, -, -, hrun⟩ := exists_seqNextF32_eq h
  rw [hrun]
  exact faultsWithin_value _ _

theorem faultsWithin_seqRandomize (t : Word) (h : HostState) : (seqRandomize t h).FaultsWithin F := by
  rw [seqRandomize_eq]
  exact faultsWithin_value _ _

theorem faultsWithin_seqBounded {b : BitVec 32} (hF : b = 0#32 → F .boundZero) (fuel : Nat) (h : HostState) :
    (seqBounded fuel b h).FaultsWithin F := by
  by_cases hb : b = 0#32
  · rw [hb, seqBounded_zero]
    exact ⟨by rintro e ⟨⟩; exact hF hb, by simp⟩
  · rw [seqBounded_of_ne_zero hb]
    obtain ⟨k, -, -, -, hrun⟩ | ⟨-, hrun⟩ := rejectionLoop_cases fuel b h <;> rw [hrun]
    · exact faultsWithin_value _ _
    · exact ⟨by simp, by simp⟩

theorem faultsWithin_seqRanged {f t : BitVec 32} (hF : rangeSpan f t = 0#32 → F .rangeFull) (fuel : Nat)
    (h : HostState) : (seqRanged fuel f t h).FaultsWithin F := by
  by_cases heq : f = t
  · rw [heq, seqRanged_self]
    exact faultsWithin_value _ _
  · by_cases hs : rangeSpan f t = 0#32
    · rw [seqRanged_of_span_zero fuel h heq hs]
      exact ⟨by rintro e ⟨⟩; exact hF hs, by simp⟩
    · rw [seqRanged_of_span_ne_zero fuel h heq hs]
      exact (faultsWithin_seqBounded (fun hz => absurd hz hs) fuel h).andThen fun v h => faultsWithin_value _ h

end FaultsWithin

/-- The faults of a pseudo-instruction are BoundZero and RangeFull, and a well-formed one has none. -/
theorem faultsWithin_runPseudo (P : Config.HostParams) (fuel : Nat) (p : Pseudo) (h : HostState) :
    (runPseudo P fuel p h).FaultsWithin fun e => e ≠ .blockError ∧ p.wellFormed = false := by
  cases p with
  | advance =>
    exact ((faultsWithin_draw h).andThen fun _ h => faultsWithin_value _ h).andThen fun _ h => faultsWithin_value _ h
  | bounded b =>
    refine (faultsWithin_seqBounded (fun hb => ⟨by simp, ?_⟩) fuel h).andThen fun _ h => faultsWithin_value _ h
    simp [Pseudo.wellFormed, hb]
  | ranged f t =>
    refine (faultsWithin_seqRanged (fun hs => ⟨by simp, ?_⟩) fuel h).andThen fun _ h => faultsWithin_value _ h
    exact bne_eq_false_iff_eq.mpr (rangeSpan_eq_zero_iff_distance.mp hs)
  | nextf32 => exact (faultsWithin_seqNextF32 h).andThen fun _ h => faultsWithin_value _ h
  | nextf64 =>
    exact ((faultsWithin_seqNextF32 h).andThen fun _ h => faultsWithin_value _ h).andThen
      fun _ h => faultsWithin_value _ h
  | frange f t =>
    exact ((faultsWithin_seqNextF32 h).andThen fun _ h => faultsWithin_value _ h).andThen
      fun _ h => faultsWithin_value _ h
  | normal m d =>
    exact ((faultsWithin_seqNextF32 h).andThen fun _ h => (faultsWithin_seqNextF32 h).andThen
      fun _ h => faultsWithin_value _ h).andThen fun _ h => faultsWithin_value _ h
  | randomize t => exact (faultsWithin_seqRandomize t h).andThen fun _ h => faultsWithin_value _ h

/-- Every pseudo-instruction leaves what some list of legal own commands leaves. -/
theorem exists_legal_afterCommands (P : Config.HostParams) (fuel : Nat) (p : Pseudo) (h : HostState) :
    ∃ cs, (∀ c ∈ cs, c.legal = true) ∧ (runPseudo P fuel p h).host = h.afterCommands cs := by
  refine runPseudo_keeps (Q := fun g => ∃ cs, (∀ c ∈ cs, c.legal = true) ∧ g = h.afterCommands cs) ?_ P fuel p
    ⟨[], by simp, rfl⟩
  rintro i _ ⟨cs, hlegal, rfl⟩
  have hi : (encode i).legal = true := (legal_iff_decode_ok _).mpr ⟨i, decode_encode i⟩
  refine ⟨cs ++ [encode i], fun c hc => ?_, by simp [HostState.afterCommands]⟩
  obtain hc | hc := List.mem_append.mp hc
  · exact hlegal c hc
  · rwa [List.mem_singleton.mp hc]

/-! ## The fields of a pattern (45_host_sequences.md R157) -/

/-- The pattern of a sign, an exponent field and a fraction. -/
def FloatFormat.ofFields (fmt : FloatFormat) (neg : Bool) (field frac : Nat) : Nat :=
  fmt.signBit neg + (field * 2 ^ (fmt.precision - 1) + frac)

section Fields
variable {fmt : FloatFormat} {field frac : Nat}

theorem signBit_eq (fmt : FloatFormat) (neg : Bool) :
    fmt.signBit neg = 2 ^ (fmt.precision - 1) * (2 ^ fmt.exponentBits * neg.toNat) := by
  cases neg <;> simp [FloatFormat.signBit, pow_add]

/-- Every pattern has its three fields. -/
theorem exists_ofFields {bits : Nat} (h : bits < 2 ^ (fmt.precision - 1 + fmt.exponentBits + 1)) :
    ∃ neg field frac, field < 2 ^ fmt.exponentBits ∧ frac < 2 ^ (fmt.precision - 1) ∧
      bits = fmt.ofFields neg field frac := by
  have hsign : bits / 2 ^ (fmt.precision - 1) / 2 ^ fmt.exponentBits < 2 := by
    rw [Nat.div_div_eq_div_mul, ← pow_add]
    exact Nat.div_lt_of_lt_mul (by rwa [← pow_succ])
  refine ⟨bits / 2 ^ (fmt.precision - 1) / 2 ^ fmt.exponentBits == 1,
    bits / 2 ^ (fmt.precision - 1) % 2 ^ fmt.exponentBits, bits % 2 ^ (fmt.precision - 1),
    Nat.mod_lt _ (Nat.two_pow_pos _), Nat.mod_lt _ (Nat.two_pow_pos _), ?_⟩
  have hneg : (bits / 2 ^ (fmt.precision - 1) / 2 ^ fmt.exponentBits == 1).toNat =
      bits / 2 ^ (fmt.precision - 1) / 2 ^ fmt.exponentBits := by
    generalize bits / 2 ^ (fmt.precision - 1) / 2 ^ fmt.exponentBits = s at hsign
    interval_cases s <;> rfl
  rw [FloatFormat.ofFields, signBit_eq, hneg, mul_comm (_ % _), ← add_assoc, ← mul_add, Nat.div_add_mod,
    Nat.div_add_mod]

/-- The three fields are read back from the pattern. -/
theorem unpack_ofFields (neg : Bool) (hfield : field < 2 ^ fmt.exponentBits)
    (hfrac : frac < 2 ^ (fmt.precision - 1)) :
    fmt.unpack (fmt.ofFields neg field frac) =
      if field = fmt.maxField then if frac = 0 then .infinite neg else .nan
      else if field = 0 then .finite neg frac (-(fmt.negMinExp : Int))
      else .finite neg (frac + 2 ^ (fmt.precision - 1)) ((field : Int) - 1 - fmt.negMinExp) := by
  have hpos := Nat.two_pow_pos (fmt.precision - 1)
  have hbits : fmt.ofFields neg field frac =
      2 ^ (fmt.precision - 1) * (2 ^ fmt.exponentBits * neg.toNat + field) + frac := by
    rw [FloatFormat.ofFields, signBit_eq]
    ring
  have hdiv : fmt.ofFields neg field frac / 2 ^ (fmt.precision - 1) = 2 ^ fmt.exponentBits * neg.toNat + field := by
    rw [hbits, Nat.mul_add_div hpos, Nat.div_eq_of_lt hfrac, add_zero]
  have hmod : fmt.ofFields neg field frac % 2 ^ (fmt.precision - 1) = frac := by
    rw [hbits, Nat.mul_add_mod, Nat.mod_eq_of_lt hfrac]
  have hsign : (fmt.ofFields neg field frac / 2 ^ (fmt.precision - 1 + fmt.exponentBits) % 2 == 1) = neg := by
    rw [pow_add, ← Nat.div_div_eq_div_mul, hdiv, Nat.mul_add_div (Nat.two_pow_pos _), Nat.div_eq_of_lt hfield]
    cases neg <;> rfl
  simp only [FloatFormat.unpack, hmod, hsign, hdiv, Nat.mul_add_mod, Nat.mod_eq_of_lt hfield]

end Fields

/-! ## Rounding a magnitude -/

/-- The weight of the last digit that rounding keeps, as a power of two. -/
def FloatFormat.quantum (fmt : FloatFormat) (mant : Nat) (exp : Int) : Int :=
  max (exp + (Nat.log2 mant : Int) - ((fmt.precision : Int) - 1)) (-(fmt.negMinExp : Int))

section Rounding
variable {fmt : FloatFormat} {mant : Nat} {exp : Int}

theorem roundShift_zero (m : Nat) : roundShift m 0 = m := by simp [roundShift, Nat.mod_one]

/-- Digits that are all 0 are dropped without rounding. -/
theorem roundShift_mul_two_pow (m k : Nat) {sh : Nat} (h : sh ≤ k) :
    roundShift (m * 2 ^ k) sh = m * 2 ^ (k - sh) := by
  obtain ⟨j, rfl⟩ := Nat.exists_eq_add_of_le h
  have hpos := Nat.two_pow_pos sh
  have hm : m * 2 ^ (sh + j) = 2 ^ sh * (m * 2 ^ j) := by ring
  rw [hm, roundShift, Nat.mul_mod_right, Nat.mul_div_cancel_left _ hpos]
  simp [hpos.ne]

@[simp] theorem roundMagnitude_zero (fmt : FloatFormat) (exp : Int) : fmt.roundMagnitude 0 exp = 0 := rfl

theorem roundMagnitude_of_ne_zero (hm : mant ≠ 0) (exp : Int) :
    fmt.roundMagnitude mant exp =
      min ((fmt.quantum mant exp + fmt.negMinExp).toNat * 2 ^ (fmt.precision - 1) +
        if exp ≤ fmt.quantum mant exp then roundShift mant (fmt.quantum mant exp - exp).toNat
        else mant * 2 ^ (exp - fmt.quantum mant exp).toNat) fmt.infinity :=
  if_neg hm

/-- No digit is dropped where the quantum is not above the exponent. -/
theorem roundMagnitude_of_quantum_le (hm : mant ≠ 0) (h : fmt.quantum mant exp ≤ exp) :
    fmt.roundMagnitude mant exp =
      min ((fmt.quantum mant exp + fmt.negMinExp).toNat * 2 ^ (fmt.precision - 1) +
        mant * 2 ^ (exp - fmt.quantum mant exp).toNat) fmt.infinity := by
  rw [roundMagnitude_of_ne_zero hm]
  obtain hlt | heq := h.lt_or_eq
  · rw [if_neg (not_le.mpr hlt)]
  · simp [heq, roundShift_zero]

theorem log2_eq_of_bounds {m k : Nat} (hlow : 2 ^ k ≤ m) (hhigh : m < 2 ^ (k + 1)) : Nat.log2 m = k :=
  Nat.log2_eq_log_two.trans (Nat.log_eq_of_pow_le_of_lt_pow hlow hhigh)

theorem log2_mul_two_pow {m : Nat} (hm : m ≠ 0) (k : Nat) : Nat.log2 (m * 2 ^ k) = Nat.log2 m + k := by
  obtain ⟨hlow, hhigh⟩ := (Nat.log2_eq_iff hm).mp rfl
  have hpos := Nat.two_pow_pos k
  refine log2_eq_of_bounds ?_ ?_
  · rw [pow_add]
    exact Nat.mul_le_mul_right _ hlow
  · rw [add_right_comm, pow_add]
    exact Nat.mul_lt_mul_of_pos_right hhigh hpos

theorem quantum_mul_two_pow (fmt : FloatFormat) (hm : mant ≠ 0) (exp : Int) (k : Nat) :
    fmt.quantum (mant * 2 ^ k) exp = fmt.quantum mant (exp + k) := by
  rw [FloatFormat.quantum, FloatFormat.quantum, log2_mul_two_pow hm]
  push_cast
  congr 1
  ring

/-- With at most `precision` digits, none of them below the least exponent, there is no digit to drop. -/
theorem quantum_le (hprec : mant < 2 ^ fmt.precision) (hexp : -(fmt.negMinExp : Int) ≤ exp) (hm : mant ≠ 0) :
    fmt.quantum mant exp ≤ exp := by
  have hlog := (Nat.log2_lt hm).mpr hprec
  rw [FloatFormat.quantum]
  omega

/-- Writing the magnitude with a lower exponent does not change its rounding. -/
theorem roundMagnitude_mul_two_pow (k : Nat) (hprec : mant < 2 ^ fmt.precision)
    (hexp : -(fmt.negMinExp : Int) ≤ exp + k) :
    fmt.roundMagnitude (mant * 2 ^ k) exp = fmt.roundMagnitude mant (exp + k) := by
  by_cases hm : mant = 0
  · simp [hm]
  · have hq := quantum_le hprec hexp hm
    have hdigits : (if exp ≤ fmt.quantum mant (exp + k) then
          roundShift (mant * 2 ^ k) (fmt.quantum mant (exp + k) - exp).toNat
        else mant * 2 ^ k * 2 ^ (exp - fmt.quantum mant (exp + k)).toNat) =
        mant * 2 ^ (exp + k - fmt.quantum mant (exp + k)).toNat := by
      split
      · rw [roundShift_mul_two_pow _ _ (by omega)]
        congr 2
        omega
      · rw [mul_assoc, ← pow_add]
        congr 2
        omega
    rw [roundMagnitude_of_ne_zero (Nat.mul_ne_zero hm (Nat.two_pow_pos k).ne'), quantum_mul_two_pow fmt hm, hdigits,
      roundMagnitude_of_quantum_le hm hq]

end Rounding

/-! ## The magnitudes of a format -/

/-- The datum of magnitude `mant * 2^exp` is written as a pattern of the format holds it: no more than `precision`
digits, the top one set unless the exponent is the least, and below infinity. -/
structure FloatFormat.Holds (fmt : FloatFormat) (mant : Nat) (exp : Int) : Prop where
  lt_precision : mant < 2 ^ fmt.precision
  minExp_le : -(fmt.negMinExp : Int) ≤ exp
  canonical : 2 ^ (fmt.precision - 1) ≤ mant ∨ exp = -(fmt.negMinExp : Int)
  lt_infinity : (exp + fmt.negMinExp).toNat * 2 ^ (fmt.precision - 1) + mant < fmt.infinity

section Holds
variable {fmt : FloatFormat} {mant : Nat} {exp : Int}

theorem FloatFormat.Holds.quantum_eq (h : fmt.Holds mant exp) (hp : 1 ≤ fmt.precision) (hm : mant ≠ 0) :
    fmt.quantum mant exp = exp := by
  refine le_antisymm (quantum_le h.lt_precision h.minExp_le hm) ?_
  rw [FloatFormat.quantum]
  obtain htop | hleast := h.canonical
  · have hlog := (Nat.le_log2 hm).mpr htop
    omega
  · omega

/-- It is its own rounding. -/
theorem FloatFormat.Holds.roundMagnitude_eq (h : fmt.Holds mant exp) (hp : 1 ≤ fmt.precision) :
    fmt.roundMagnitude mant exp = (exp + fmt.negMinExp).toNat * 2 ^ (fmt.precision - 1) + mant := by
  by_cases hm : mant = 0
  · have hleast : exp = -(fmt.negMinExp : Int) := h.canonical.resolve_left (by simp [hm])
    simp [hm, hleast]
  · have hq := h.quantum_eq hp hm
    rw [roundMagnitude_of_quantum_le hm hq.le, hq, sub_self]
    simpa using h.lt_infinity.le

/-- Without the hidden digit, below the least normal magnitude. -/
theorem holds_of_frac_lt (hp : 1 ≤ fmt.precision) (hmax : 0 < fmt.maxField) (h : mant < 2 ^ (fmt.precision - 1)) :
    fmt.Holds mant (-(fmt.negMinExp : Int)) where
  lt_precision := h.trans (Nat.pow_lt_pow_right (by decide) (by omega))
  minExp_le := le_rfl
  canonical := .inr rfl
  lt_infinity := by
    simpa [FloatFormat.infinity] using h.trans_le (Nat.le_mul_of_pos_left _ hmax)

/-- With the hidden digit, and the exponent field `field + 1`. -/
theorem holds_of_hidden_digit {field frac : Nat} (hp : 1 ≤ fmt.precision) (hfield : field + 1 < fmt.maxField)
    (hfrac : frac < 2 ^ (fmt.precision - 1)) :
    fmt.Holds (frac + 2 ^ (fmt.precision - 1)) ((field : Int) - fmt.negMinExp) where
  lt_precision := by
    have hdouble := Nat.two_pow_pred_mul_two hp
    omega
  minExp_le := by omega
  canonical := .inl (Nat.le_add_left _ _)
  lt_infinity := by
    have hle := Nat.mul_le_mul_right (2 ^ (fmt.precision - 1)) (Nat.succ_le_of_lt hfield)
    have hexpand : (field + 1).succ * 2 ^ (fmt.precision - 1) =
      field * 2 ^ (fmt.precision - 1) + 2 ^ (fmt.precision - 1) + 2 ^ (fmt.precision - 1) := by
      rw [Nat.succ_mul, Nat.succ_mul]
    rw [sub_add_cancel, Int.toNat_natCast, FloatFormat.infinity]
    omega

/-- The pattern of a finite datum. -/
def FloatFormat.finitePattern (fmt : FloatFormat) (neg : Bool) (mant : Nat) (exp : Int) : Nat :=
  fmt.signBit neg + ((exp + fmt.negMinExp).toNat * 2 ^ (fmt.precision - 1) + mant)

theorem ofFields_zero (fmt : FloatFormat) (neg : Bool) (frac : Nat) :
    fmt.ofFields neg 0 frac = fmt.finitePattern neg frac (-(fmt.negMinExp : Int)) := by
  simp [FloatFormat.ofFields, FloatFormat.finitePattern]

theorem ofFields_succ (fmt : FloatFormat) (neg : Bool) (field frac : Nat) :
    fmt.ofFields neg (field + 1) frac =
      fmt.finitePattern neg (frac + 2 ^ (fmt.precision - 1)) ((field : Int) - fmt.negMinExp) := by
  rw [FloatFormat.ofFields, FloatFormat.finitePattern, sub_add_cancel, Int.toNat_natCast]
  ring

theorem maxField_lt_two_pow (fmt : FloatFormat) : fmt.maxField < 2 ^ fmt.exponentBits :=
  Nat.sub_lt (Nat.two_pow_pos _) Nat.one_pos

/-- What a pattern can stand for. -/
theorem unpack_cases {bits : Nat} (hp : 1 ≤ fmt.precision) (hmax : 0 < fmt.maxField)
    (h : bits < 2 ^ (fmt.precision - 1 + fmt.exponentBits + 1)) :
    (fmt.unpack bits = .nan ∧ fmt.infinity ≤ bits) ∨
    (∃ neg, fmt.unpack bits = .infinite neg ∧ bits = fmt.signBit neg + fmt.infinity) ∨
    ∃ neg mant exp, fmt.unpack bits = .finite neg mant exp ∧ fmt.Holds mant exp ∧
      bits = fmt.finitePattern neg mant exp := by
  obtain ⟨neg, field, frac, hfield, hfrac, rfl⟩ := exists_ofFields h
  have hdatum := unpack_ofFields neg hfield hfrac
  by_cases hinf : field = fmt.maxField
  · rw [if_pos hinf] at hdatum
    by_cases hzero : frac = 0
    · rw [if_pos hzero] at hdatum
      exact .inr (.inl ⟨neg, hdatum, by rw [hinf, hzero]; rfl⟩)
    · rw [if_neg hzero] at hdatum
      refine .inl ⟨hdatum, ?_⟩
      rw [FloatFormat.ofFields, hinf, FloatFormat.infinity]
      omega
  · rw [if_neg hinf] at hdatum
    cases field with
    | zero => exact .inr (.inr ⟨neg, _, _, hdatum, holds_of_frac_lt hp hmax hfrac, ofFields_zero fmt neg frac⟩)
    | succ field =>
      have hexp : ((field + 1 : Nat) : Int) - 1 - fmt.negMinExp = (field : Int) - fmt.negMinExp := by omega
      have hlt : field + 1 < fmt.maxField := by
        have := maxField_lt_two_pow fmt
        rw [FloatFormat.maxField] at hinf ⊢
        omega
      rw [if_neg (Nat.succ_ne_zero field), hexp] at hdatum
      exact .inr (.inr ⟨neg, _, _, hdatum, holds_of_hidden_digit hp hlt hfrac, ofFields_succ fmt neg field frac⟩)

/-- A datum that the format holds is read back from its pattern. -/
theorem FloatFormat.Holds.unpack_finitePattern (h : fmt.Holds mant exp) (hp : 1 ≤ fmt.precision)
    (hmax : 0 < fmt.maxField) (neg : Bool) : fmt.unpack (fmt.finitePattern neg mant exp) = .finite neg mant exp := by
  obtain ⟨hprec, hexp, hcan, hinf⟩ := h
  have hdouble := Nat.two_pow_pred_mul_two hp
  by_cases htop : mant < 2 ^ (fmt.precision - 1)
  · obtain rfl := hcan.resolve_left (not_le.mpr htop)
    rw [← ofFields_zero, unpack_ofFields neg (Nat.two_pow_pos _) htop, if_neg hmax.ne, if_pos rfl]
  · obtain ⟨frac, rfl⟩ := Nat.exists_eq_add_of_le' (not_lt.mp htop)
    obtain ⟨field, hfield⟩ := Int.eq_ofNat_of_zero_le (by omega : 0 ≤ exp + fmt.negMinExp)
    obtain rfl : exp = (field : Int) - fmt.negMinExp := by omega
    have hlt : field + 1 < fmt.maxField := by
      rw [sub_add_cancel, Int.toNat_natCast, FloatFormat.infinity] at hinf
      refine Nat.lt_of_mul_lt_mul_right (a := 2 ^ (fmt.precision - 1)) ?_
      rw [Nat.succ_mul]
      omega
    rw [← ofFields_succ, unpack_ofFields neg (hlt.trans (maxField_lt_two_pow fmt)) (by omega), if_neg hlt.ne,
      if_neg (Nat.succ_ne_zero field)]
    congr 1
    omega

/-- Rounding a datum of the format gives its pattern. -/
theorem FloatFormat.Holds.pack_eq (h : fmt.Holds mant exp) (hp : 1 ≤ fmt.precision) (freeNan : Nat) (neg : Bool) :
    fmt.pack freeNan (.finite neg mant exp) = fmt.finitePattern neg mant exp := by
  rw [FloatFormat.pack, h.roundMagnitude_eq hp, FloatFormat.finitePattern]

/-- Rounding what a pattern stands for gives the pattern back. -/
theorem pack_unpack {bits : Nat} (hp : 1 ≤ fmt.precision) (hmax : 0 < fmt.maxField)
    (h : bits < 2 ^ (fmt.precision - 1 + fmt.exponentBits + 1)) (hnan : fmt.unpack bits ≠ .nan) (freeNan : Nat) :
    fmt.pack freeNan (fmt.unpack bits) = bits := by
  obtain ⟨hn, -⟩ | ⟨neg, hdatum, hbits⟩ | ⟨neg, mant, exp, hdatum, hholds, hbits⟩ := unpack_cases hp hmax h
  · exact absurd hn hnan
  · rw [hdatum, hbits]
    rfl
  · rw [hdatum, hholds.pack_eq hp, hbits]

/-- A magnitude with no digit to drop, below infinity, is held with the quantum as its exponent. -/
theorem holds_of_quantum_le (hp : 1 ≤ fmt.precision) (hm : mant ≠ 0) (hq : fmt.quantum mant exp ≤ exp)
    (hmax : (fmt.quantum mant exp + fmt.negMinExp).toNat + 2 ≤ fmt.maxField) :
    fmt.Holds (mant * 2 ^ (exp - fmt.quantum mant exp).toNat) (fmt.quantum mant exp) := by
  have hpos : mant * 2 ^ (exp - fmt.quantum mant exp).toNat ≠ 0 := Nat.mul_ne_zero hm (Nat.two_pow_pos _).ne'
  have hlog := log2_mul_two_pow hm (exp - fmt.quantum mant exp).toNat
  have hquantum : fmt.quantum mant exp = max (exp + (Nat.log2 mant : Int) - ((fmt.precision : Int) - 1))
    (-(fmt.negMinExp : Int)) := rfl
  have hprec : mant * 2 ^ (exp - fmt.quantum mant exp).toNat < 2 ^ fmt.precision :=
    (Nat.log2_lt hpos).mp (by omega)
  refine ⟨hprec, by omega, ?_, ?_⟩
  · obtain htop | hleast := max_choice (exp + (Nat.log2 mant : Int) - ((fmt.precision : Int) - 1))
      (-(fmt.negMinExp : Int))
    · exact .inl ((Nat.le_log2 hpos).mp (by omega))
    · exact .inr (hquantum.trans hleast)
  · have hdouble := Nat.two_pow_pred_mul_two hp
    have hle := Nat.mul_le_mul_right (2 ^ (fmt.precision - 1)) hmax
    rw [add_mul] at hle
    rw [FloatFormat.infinity]
    omega

end Holds

/-! ## Patterns that are read back -/

section Specials
variable {fmt : FloatFormat}

theorem finitePattern_lt {mant : Nat} {exp : Int} (h : fmt.Holds mant exp) (neg : Bool) :
    fmt.finitePattern neg mant exp < 2 ^ (fmt.precision - 1 + fmt.exponentBits + 1) := by
  have hinf : fmt.infinity ≤ 2 ^ (fmt.precision - 1 + fmt.exponentBits) := by
    rw [FloatFormat.infinity, Nat.pow_add, Nat.mul_comm]
    exact Nat.mul_le_mul_left _ (maxField_lt_two_pow fmt).le
  have hsign : fmt.signBit neg ≤ 2 ^ (fmt.precision - 1 + fmt.exponentBits) := by
    cases neg <;> simp [FloatFormat.signBit]
  have hmag := h.lt_infinity
  rw [FloatFormat.finitePattern, pow_succ]
  omega

/-- An infinity is read back with its sign. -/
theorem unpack_pack_infinite (freeNan : Nat) (neg : Bool) :
    fmt.unpack (fmt.pack freeNan (.infinite neg)) = .infinite neg := by
  have hbits : fmt.pack freeNan (.infinite neg) = fmt.ofFields neg fmt.maxField 0 := rfl
  rw [hbits, unpack_ofFields neg (maxField_lt_two_pow fmt) (Nat.two_pow_pos _), if_pos rfl, if_pos rfl]

/-- Whatever sign and payload are chosen for a NaN, the exponent field is all ones and the quiet bit is set. -/
theorem unpack_pack_nan (hp : 2 ≤ fmt.precision) (freeNan : Nat) : fmt.unpack (fmt.pack freeNan .nan) = .nan := by
  have hquiet : 2 ^ (fmt.precision - 2) < 2 ^ (fmt.precision - 1) := Nat.pow_lt_pow_right (by decide) (by omega)
  have hbits : fmt.infinity + 2 ^ (fmt.precision - 2) =
      2 ^ (fmt.precision - 1) * fmt.maxField + 2 ^ (fmt.precision - 2) := by rw [FloatFormat.infinity, Nat.mul_comm]
  have hfield : fmt.pack freeNan .nan / 2 ^ (fmt.precision - 1) % 2 ^ fmt.exponentBits = fmt.maxField := by
    have hlow : fmt.maxField ≤ fmt.pack freeNan .nan / 2 ^ (fmt.precision - 1) % 2 ^ fmt.exponentBits := by
      rw [FloatFormat.pack, ← Nat.shiftRight_eq_div_pow, Nat.shiftRight_or_distrib, Nat.or_mod_two_pow, hbits,
        Nat.shiftRight_eq_div_pow, Nat.shiftRight_eq_div_pow, Nat.mul_add_div (Nat.two_pow_pos _),
        Nat.div_eq_of_lt hquiet, Nat.add_zero, Nat.mod_eq_of_lt (maxField_lt_two_pow fmt)]
      exact Nat.right_le_or
    have hhigh := Nat.mod_lt (fmt.pack freeNan .nan / 2 ^ (fmt.precision - 1)) (Nat.two_pow_pos fmt.exponentBits)
    rw [FloatFormat.maxField] at hlow ⊢
    omega
  have hfrac : fmt.pack freeNan .nan % 2 ^ (fmt.precision - 1) ≠ 0 := by
    have hlow : 2 ^ (fmt.precision - 2) ≤ fmt.pack freeNan .nan % 2 ^ (fmt.precision - 1) := by
      rw [FloatFormat.pack, Nat.or_mod_two_pow, hbits, Nat.mul_add_mod, Nat.mod_eq_of_lt hquiet]
      exact Nat.right_le_or
    exact (Nat.lt_of_lt_of_le (Nat.two_pow_pos _) hlow).ne'
  simp only [FloatFormat.unpack, hfield, if_true, if_neg hfrac]

end Specials

/-! ## binary32 patterns -/

theorem datum32_cases (x : Binary32) :
    (datum32 x = .nan ∧ binary32.infinity ≤ x.toNat) ∨
    (∃ neg, datum32 x = .infinite neg ∧ x.toNat = binary32.signBit neg + binary32.infinity) ∨
    ∃ neg mant exp, datum32 x = .finite neg mant exp ∧ binary32.Holds mant exp ∧
      x.toNat = binary32.finitePattern neg mant exp :=
  unpack_cases (by decide) (by decide) x.isLt

/-- Rounding the exact datum of a pattern gives the pattern back. -/
theorem roundF32_datum32 (n : Binary32) {x : Binary32} (hx : Claims.NotNaN x) : roundF32 n (datum32 x) = x := by
  have hbits : binary32.pack n.toNat (datum32 x) = x.toNat := pack_unpack (by decide) (by decide) x.isLt hx n.toNat
  rw [roundF32, hbits, BitVec.ofNat_toNat, BitVec.setWidth_eq]

/-! ## Widening (R157) -/

theorem datum64_ofNat {bits : Nat} (h : bits < 2 ^ 64) : datum64 (BitVec.ofNat 64 bits) = binary64.unpack bits := by
  rw [datum64, BitVec.toNat_ofNat, Nat.mod_eq_of_lt h]

/-- Every finite binary32 magnitude is one of binary64, with a lower exponent. -/
theorem exists_binary64_holds {mant : Nat} {exp : Int} (h : binary32.Holds mant exp) :
    ∃ k : Nat, binary64.Holds (mant * 2 ^ k) (exp - k) := by
  obtain ⟨hprec, hexp, -, hinf⟩ := h
  have hprec : mant < 2 ^ 24 := hprec
  have hexp : -149 ≤ exp := hexp
  have hinf : (exp + 149).toNat * 2 ^ 23 + mant < 255 * 2 ^ 23 := hinf
  by_cases hm : mant = 0
  · refine ⟨(exp + 1074).toNat, ?_⟩
    have hleast : exp - (exp + 1074).toNat = -1074 := by omega
    rw [hm, Nat.zero_mul, hleast]
    exact holds_of_frac_lt (by decide) (by decide) (by decide)
  · have hlog : Nat.log2 mant < 24 := (Nat.log2_lt hm).mpr hprec
    have hquantum : binary64.quantum mant exp = exp + (Nat.log2 mant : Int) - 52 :=
      max_eq_left (by simp only [binary64]; omega)
    refine ⟨(exp - binary64.quantum mant exp).toNat, ?_⟩
    have hlow : exp - (exp - binary64.quantum mant exp).toNat = binary64.quantum mant exp := by omega
    rw [hlow]
    refine holds_of_quantum_le (by decide) hm (by omega) ?_
    have hmax : binary64.maxField = 2047 := by decide
    rw [hquantum, hmax]
    simp only [binary64]
    omega

/-- Packing it as binary64 drops no digit. -/
theorem exists_pack64_eq {mant : Nat} {exp : Int} (h : binary32.Holds mant exp) (freeNan : Nat) (neg : Bool) :
    ∃ k : Nat, binary64.Holds (mant * 2 ^ k) (exp - k) ∧
      binary64.pack freeNan (.finite neg mant exp) = binary64.finitePattern neg (mant * 2 ^ k) (exp - k) := by
  obtain ⟨k, hk⟩ := exists_binary64_holds h
  have hprec : mant < 2 ^ 53 := h.lt_precision.trans (by decide)
  have hexp : -1074 ≤ exp := le_trans (by decide) h.minExp_le
  have hround := roundMagnitude_mul_two_pow (fmt := binary64) (exp := exp - k) k hprec (by rwa [sub_add_cancel])
  rw [sub_add_cancel] at hround
  refine ⟨k, hk, ?_⟩
  rw [← hk.pack_eq (by decide) freeNan neg, FloatFormat.pack, FloatFormat.pack, hround]

theorem pack64_datum32_lt (freeNan : Binary64) (x : Binary32) :
    binary64.pack freeNan.toNat (datum32 x) < 2 ^ 64 := by
  obtain ⟨hx, -⟩ | ⟨neg, hx, -⟩ | ⟨neg, mant, exp, hx, hholds, -⟩ := datum32_cases x <;> rw [hx]
  · exact Nat.or_lt_two_pow freeNan.isLt (by decide)
  · have hbound : binary64.signBit neg + binary64.infinity < 2 ^ 64 := by cases neg <;> decide
    exact hbound
  · obtain ⟨k, hk, hpack⟩ := exists_pack64_eq hholds freeNan.toNat neg
    rw [hpack]
    exact finitePattern_lt hk neg

theorem datum64_widen64 (P : Config.HostParams) (x : Binary32) :
    datum64 (widen64 P x) = binary64.unpack (binary64.pack (P.nan64 x).toNat (datum32 x)) := by
  rw [datum64, widen64, BitVec.toNat_ofNat, Nat.mod_eq_of_lt (pack64_datum32_lt _ x)]

/-- Writing a magnitude with a lower exponent keeps its value. -/
theorem sameValue_mul_two_pow (neg : Bool) (mant : Nat) (exp : Int) (k : Nat) :
    Claims.SameValue (.finite neg mant exp) (.finite neg (mant * 2 ^ k) (exp - k)) := by
  have hmin : min exp (exp - k) = exp - k := by omega
  refine ⟨rfl, ?_⟩
  rw [hmin, sub_self, sub_sub_cancel]
  simp

theorem sameValue_widen64 (P : Config.HostParams) (x : Binary32) :
    Claims.SameValue (datum32 x) (datum64 (widen64 P x)) := by
  rw [datum64_widen64]
  obtain ⟨hx, -⟩ | ⟨neg, hx, -⟩ | ⟨neg, mant, exp, hx, hholds, -⟩ := datum32_cases x <;> rw [hx]
  · rw [unpack_pack_nan (by decide)]
    trivial
  · rw [unpack_pack_infinite]
    rfl
  · obtain ⟨k, hk, hpack⟩ := exists_pack64_eq hholds (P.nan64 x).toNat neg
    rw [hpack, hk.unpack_finitePattern (by decide) (by decide)]
    exact sameValue_mul_two_pow neg mant exp k

theorem widen64_zero (P : Config.HostParams) : widen64 P 0#32 = 0#64 := rfl

theorem widen64_one (P : Config.HostParams) : widen64 P 0x3F800000#32 = 0x3FF0000000000000#64 := by
  have hone : datum32 0x3F800000#32 = .finite false (2 ^ 23) (-23) := by decide
  rw [widen64, hone, FloatFormat.pack]
  decide

/-! ## Scaling a mantissa draw (R158) -/

theorem mantissaOf_ge (r : Draw) : 2 ^ 31 ≤ (mantissaOf r).toNat :=
  le_trans (by decide) (BitVec.toNat_or r 0x80000001#32 ▸ Nat.right_le_or)

theorem mantissaOf_odd (r : Draw) : (mantissaOf r).toNat % 2 = 1 := by
  refine Nat.mod_two_eq_one_iff_testBit_zero.mpr ?_
  rw [BitVec.testBit_toNat]
  simp [mantissaOf]

/-- An odd number has no tie in its low 8 bits, so rounding them off is adding just less than half of 256. -/
theorem roundShift_eight_of_odd {m : Nat} (h : m % 2 = 1) : roundShift m 8 = (m + 127) / 2 ^ 8 := by
  unfold roundShift
  dsimp only
  split
  · omega
  · split <;> omega

/-- The pattern of a scaled mantissa draw: its exponent falls with `z`, and its 32 digits are rounded to 24. -/
theorem toNat_scaleDraw (r : Draw) {z : Nat} (hz : z ≤ 31) :
    (scaleDraw (mantissaOf r) (-32 - (z : Int))).toNat =
      (125 - z) * 2 ^ 23 + ((mantissaOf r).toNat + 127) / 2 ^ 8 := by
  have hge := mantissaOf_ge r
  have hlt := (mantissaOf r).isLt
  have hlog : Nat.log2 (mantissaOf r).toNat = 31 := log2_eq_of_bounds hge hlt
  have hquantum : binary32.quantum (mantissaOf r).toNat (-32 - z) = -24 - z := by
    rw [FloatFormat.quantum, hlog]
    simp only [binary32]
    omega
  have hinf : binary32.infinity = 255 * 2 ^ 23 := by decide
  have hround : binary32.roundMagnitude (mantissaOf r).toNat (-32 - z) =
      (125 - z) * 2 ^ 23 + ((mantissaOf r).toNat + 127) / 2 ^ 8 := by
    have hshift : (-24 - (z : Int) - (-32 - z)).toNat = 8 := by omega
    rw [roundMagnitude_of_ne_zero (by omega), hquantum, if_pos (by omega), hshift,
      roundShift_eight_of_odd (mantissaOf_odd r), hinf]
    simp only [binary32]
    omega
  rw [scaleDraw, roundF32, FloatFormat.pack, hround, FloatFormat.signBit, if_neg Bool.false_ne_true,
    BitVec.toNat_ofNat]
  omega

/-- A leading-zero count is at most 31, and 0 where the top bit is set. -/
theorem clz32_eq_some {x : BitVec 32} {z : Nat} (h : clz32 x = some z) :
    z ≤ 31 ∧ (z = 0 ↔ 0x80000000#32 ≤ x) := by
  by_cases hx : x = 0#32
  · simp [clz32, hx] at h
  · rw [clz32_of_ne_zero hx] at h
    cases h
    have hpos := (BitVec.toNat_pos_of_ne_zero hx).ne'
    have hlog := Nat.le_log2 hpos (k := 31)
    refine ⟨Nat.sub_le 31 _, ?_⟩
    rw [Nat.sub_eq_zero_iff_le, hlog]
    rfl

/-- A scaled mantissa draw lies from 2^-32 to 1.0, and where it is 1.0 (R159). -/
theorem scaleDraw_range (r : Draw) {e : Draw} {z : Nat} (hz : clz32 e = some z) :
    0x2F800000#32 ≤ scaleDraw (mantissaOf r) (-32 - (z : Int)) ∧
    scaleDraw (mantissaOf r) (-32 - (z : Int)) ≤ 0x3F800000#32 ∧
    (scaleDraw (mantissaOf r) (-32 - (z : Int)) = 0x3F800000#32 ↔
      0x80000000#32 ≤ e ∧ 0xFFFFFF81#32 ≤ mantissaOf r) := by
  obtain ⟨hle, htop⟩ := clz32_eq_some hz
  have hbits := toNat_scaleDraw r hle
  have hge := mantissaOf_ge r
  have hlt := (mantissaOf r).isLt
  rw [← htop, BitVec.le_def, BitVec.le_def, BitVec.le_def, ← BitVec.toNat_inj, hbits]
  simp only [BitVec.toNat_ofNat]
  omega

/-! ## Arithmetic with a zero (R157) -/

/-- The two binary32 zeros. -/
def signedZero (neg : Bool) : Binary32 := if neg then 0x80000000#32 else 0x00000000#32

theorem isZero32_iff {x : Binary32} : Claims.IsZero32 x ↔ ∃ neg, x = signedZero neg := by
  simp [Claims.IsZero32, signedZero]

theorem datum32_signedZero (neg : Bool) : datum32 (signedZero neg) = .finite neg 0 (-149) := by
  cases neg <;> decide

theorem notNaN_of_finite {x : Binary32} (h : Claims.Finite32 x) : Claims.NotNaN x := by
  obtain ⟨neg, mant, exp, hx⟩ := h
  simp [Claims.NotNaN, hx]

/-- A zero datum rounds to the zero of its sign. -/
theorem roundF32_zero (n : Binary32) (neg : Bool) (exp : Int) : roundF32 n (.finite neg 0 exp) = signedZero neg := by
  cases neg <;> rfl

/-! The exact sum. -/

theorem datum_add_comm (a b : FloatDatum) : a.add b = b.add a := by
  cases a with
  | nan => cases b <;> rfl
  | infinite s =>
    cases b with
    | nan | finite => rfl
    | infinite t =>
      by_cases h : s = t
      · rw [h]
      · simp [FloatDatum.add, h, Ne.symm h]
  | finite a ma ea =>
    cases b with
    | nan | infinite => rfl
    | finite b mb eb =>
      rw [FloatDatum.add, FloatDatum.add, min_comm eb ea, add_comm (signedMantissa b mb eb _), Bool.and_comm b a]

@[simp] theorem signedMantissa_zero (neg : Bool) (exp low : Int) : signedMantissa neg 0 exp low = 0 := by
  simp [signedMantissa]

theorem signedMantissa_not (neg : Bool) (mant : Nat) (exp low : Int) :
    signedMantissa (!neg) mant exp low = -signedMantissa neg mant exp low := by
  cases neg <;> simp [signedMantissa]

/-- A finite value less itself is +0. -/
theorem datum_add_negate_self (neg : Bool) (mant : Nat) (exp : Int) :
    (FloatDatum.finite neg mant exp).add (FloatDatum.finite neg mant exp).negate = .finite false 0 exp := by
  simp [FloatDatum.add, FloatDatum.negate, signedMantissa_not]

theorem datum_zero_add_zero (a b : Bool) (exp : Int) :
    (FloatDatum.finite a 0 exp).add (.finite b 0 exp) = .finite (a && b) 0 exp := by
  simp [FloatDatum.add]

/-- Adding a zero of lower exponent only writes the value with that exponent. -/
theorem datum_add_zero {mant : Nat} (hm : mant ≠ 0) {exp low : Int} (hlow : low ≤ exp) (a b : Bool) :
    (FloatDatum.finite a mant exp).add (.finite b 0 low) = .finite a (mant * 2 ^ (exp - low).toNat) low := by
  have hpos : 0 < (mant : Int) * 2 ^ (exp - low).toNat := by positivity
  have habs : ((mant : Int) * 2 ^ (exp - low).toNat).natAbs = mant * 2 ^ (exp - low).toNat := by
    simp [Int.natAbs_mul, Int.natAbs_pow]
  rw [FloatDatum.add, min_eq_right hlow, signedMantissa_zero, add_zero, signedMantissa]
  cases a with
  | false => simp [hpos.ne', hpos.le, habs]
  | true => simp [hpos.ne', hpos, habs]

/-! Its rounding. -/

theorem subF32_self (P : Config.HostParams) {x : Binary32} (hx : Claims.Finite32 x) :
    subF32 P x x = signedZero false := by
  obtain ⟨neg, mant, exp, hx⟩ := hx
  rw [subF32, hx, datum_add_negate_self, roundF32_zero]

/-- A finite value times a zero is a zero, whose sign is negative where the two signs differ. -/
theorem mulF32_signedZero (P : Config.HostParams) {x : Binary32} {neg : Bool} {mant : Nat} {exp : Int}
    (hx : datum32 x = .finite neg mant exp) (b : Bool) :
    mulF32 P x (signedZero b) = signedZero (neg ^^ b) := by
  rw [mulF32, hx, datum32_signedZero, FloatDatum.mul, Nat.mul_zero, roundF32_zero]

theorem signedZero_mulF32 (P : Config.HostParams) {x : Binary32} {neg : Bool} {mant : Nat} {exp : Int}
    (hx : datum32 x = .finite neg mant exp) (b : Bool) :
    mulF32 P (signedZero b) x = signedZero (b ^^ neg) := by
  rw [mulF32, hx, datum32_signedZero, FloatDatum.mul, Nat.zero_mul, roundF32_zero]

theorem addF32_signedZero_signedZero (P : Config.HostParams) (a b : Bool) :
    addF32 P (signedZero a) (signedZero b) = signedZero (a && b) := by
  rw [addF32, datum32_signedZero, datum32_signedZero, datum_zero_add_zero, roundF32_zero]

/-- Adding a zero to a value that is no zero gives the value back. -/
theorem roundF32_add_signedZero (n : Binary32) {x : Binary32} (hx : Claims.NotNaN x) (h0 : ¬ Claims.IsZero32 x)
    (b : Bool) : roundF32 n ((datum32 x).add (datum32 (signedZero b))) = x := by
  have hback := roundF32_datum32 n hx
  rw [datum32_signedZero]
  obtain ⟨hn, -⟩ | ⟨neg, hd, -⟩ | ⟨neg, mant, exp, hd, hholds, -⟩ := datum32_cases x
  · exact absurd hn hx
  · rwa [hd] at hback ⊢
  · rw [hd] at hback ⊢
    have hm : mant ≠ 0 := by
      rintro rfl
      exact h0 (isZero32_iff.mpr ⟨neg, by rw [← hback, roundF32_zero]⟩)
    have hlow : -149 ≤ exp := hholds.minExp_le
    have hexp : -149 + ((exp - -149).toNat : Int) = exp := by omega
    have hround := roundMagnitude_mul_two_pow (fmt := binary32) (exp := -149) (exp - -149).toNat hholds.lt_precision
      (by rw [hexp]; exact hlow)
    rw [hexp] at hround
    rw [datum_add_zero hm hlow]
    simpa only [roundF32, FloatFormat.pack, hround] using hback

theorem addF32_signedZero (P : Config.HostParams) {x : Binary32} (hx : Claims.NotNaN x) (h0 : ¬ Claims.IsZero32 x)
    (b : Bool) : addF32 P x (signedZero b) = x :=
  roundF32_add_signedZero _ hx h0 b

/-- Adding a zero changes at most -0, to +0. -/
theorem addF32_signedZero_cases (P : Config.HostParams) {x : Binary32} (hx : Claims.NotNaN x) (b : Bool) :
    addF32 P x (signedZero b) = x ∨ (x = 0x80000000#32 ∧ addF32 P x (signedZero b) = 0#32) := by
  by_cases h0 : Claims.IsZero32 x
  · obtain ⟨neg, rfl⟩ := isZero32_iff.mp h0
    rw [addF32_signedZero_signedZero]
    cases neg with
    | false => exact .inl rfl
    | true =>
      cases b with
      | false => exact .inr ⟨rfl, rfl⟩
      | true => exact .inl rfl
  · exact .inl (addF32_signedZero P hx h0 b)

theorem signedZero_addF32 (P : Config.HostParams) {x : Binary32} (hx : Claims.NotNaN x) (h0 : ¬ Claims.IsZero32 x)
    (b : Bool) : addF32 P (signedZero b) x = x := by
  rw [addF32, datum_add_comm]
  exact roundF32_add_signedZero _ hx h0 b

/-! ## Patterns up to 1.0 -/

/-- A pattern up to that of 1.0 is finite and not negative. -/
theorem exists_datum32_of_le_one {x : Binary32} (h : x ≤ 0x3F800000#32) :
    ∃ mant exp, datum32 x = .finite false mant exp := by
  have hinf : binary32.infinity = 255 * 2 ^ 23 := by decide
  have hone : x.toNat ≤ 127 * 2 ^ 23 := h
  have hsign : binary32.signBit true = 2 ^ 31 := by decide
  obtain ⟨-, hbits⟩ | ⟨neg, -, hbits⟩ | ⟨neg, mant, exp, hd, -, hbits⟩ := datum32_cases x
  · rw [hinf] at hbits
    omega
  · rw [hinf] at hbits
    omega
  · cases neg with
    | false => exact ⟨mant, exp, hd⟩
    | true =>
      rw [FloatFormat.finitePattern, hsign] at hbits
      omega

/-- A value of NEXTF32 is at most 1.0 (R159). -/
theorem seqNextF32_le_one {h h' : HostState} {u : Binary32} (hu : seqNextF32 h = ⟨.value u, h'⟩) :
    u ≤ 0x3F800000#32 := by
  obtain ⟨-, hrun⟩ | ⟨-, z, hz, hrun⟩ := seqNextF32_cases h <;> rw [hrun] at hu <;> cases hu
  · decide
  · obtain ⟨-, hle, -⟩ := scaleDraw_range (Claims.drawSeen 1 h) hz
    exact hle

end Sys2Proof.Machine

namespace Sys2Proof.Claims

open Sys2Proof.Machine

/-- Settles O43: `-b` is `2^32 - b`, which leaves the remainder of `2^32` and is at least that remainder. -/
theorem boundThresholdIsPowerRemainder : Obligations.BoundThresholdIsPowerRemainder := by
  intro b hb
  have hlt := b.isLt
  have hbelow : (boundThreshold b).toNat < b.toNat := umod_lt hb (-b)
  have hle : (boundThreshold b).toNat ≤ 2 ^ 32 - b.toNat := by
    rw [toNat_boundThreshold hb]
    exact Nat.mod_le _ _
  have hrem : (boundThreshold b).toNat = 2 ^ 32 % b.toNat := by
    rw [toNat_boundThreshold hb, ← Nat.mod_eq_sub_mod hlt.le]
  exact ⟨hrem, hbelow, by omega, hrem ▸ Nat.dvd_sub_mod (2 ^ 32)⟩

/-- Settles O44: the rejection loop by induction on the fuel, the stream of draws as a list of own commands. -/
theorem boundedReturnsFirstAcceptedDraw : Obligations.BoundedReturnsFirstAcceptedDraw := by
  refine ⟨fun fuel b h hb => ?_, fun k h => afterDraws_issued k h,
    fun k h ho => ⟨drawSeen_alone k ho, afterDraws_alone k ho⟩⟩
  rw [seqBounded_of_ne_zero hb]
  obtain ⟨k, hk, hacc, hrej, hrun⟩ | hout := rejectionLoop_cases fuel b h
  · exact .inl ⟨k, hk, hacc, hrej, hrun, umod_lt hb _⟩
  · exact .inr hout

/-- Settles O45: the two tests of RANGED and the test of BOUNDED come before any command. -/
theorem hostFaultsIssueNoCommand : Obligations.HostFaultsIssueNoCommand := by
  refine ⟨seqBounded_zero, fun fuel k h => seqRanged_self fuel h k, fun f t => rangeSpan_eq_zero_iff,
    fun fuel f t h hs => seqRanged_of_span_zero fuel h ?_ hs⟩
  rintro rfl
  rw [rangeSpan_self] at hs
  exact absurd hs (by decide)

/-- Settles O46: BOUNDED of the span is at most the distance of the ends. -/
theorem rangedLiesBetweenItsEnds : Obligations.RangedLiesBetweenItsEnds := by
  intro fuel f t h
  refine ⟨seqRanged_comm fuel h f t, fun v hv => ?_, fun hne v hv => ?_⟩
  · by_cases heq : f = t
    · subst heq
      rw [seqRanged_self] at hv
      cases hv
      simp
    · by_cases hs : rangeSpan f t = 0#32
      · rw [seqRanged_of_span_zero fuel h heq hs] at hv
        cases hv
      · rw [seqRanged_of_span_ne_zero fuel h heq hs] at hv
        obtain ⟨w, hw, hv⟩ := exists_value_of_andThen hv
        cases hv
        obtain ⟨hexact, hle⟩ := toInt_ranged_value (seqBounded_value_lt hw)
        rw [hexact]
        exact ⟨by omega, hle⟩
  · have hs : rangeSpan f t ≠ 0#32 := by
      intro hs
      rw [hs, seqBounded_zero] at hv
      cases hv
    refine ⟨_, ?_, (toInt_ranged_value (seqBounded_value_lt hv)).1⟩
    rw [seqRanged_of_span_ne_zero fuel h hne hs, andThen_of_value hv]
    rfl

/-- Settles O47: the pattern of the scaled mantissa falls with the leading zeros of the first draw. -/
theorem nextF32Range : Obligations.NextF32Range := by
  intro h e r
  have hvalue : e ≠ 0#32 → ∃ x, seqNextF32 h = ⟨.value x, afterDraws 2 h⟩ ∧
      0x2F800000#32 ≤ x ∧ x ≤ 0x3F800000#32 ∧
      (x = 0x3F800000#32 ↔ 0x80000000#32 ≤ e ∧ 0xFFFFFF81#32 ≤ r ||| 0x80000001#32) := by
    intro he
    have hz := clz32_of_ne_zero he
    exact ⟨_, seqNextF32_of_ne_zero he hz, scaleDraw_range r hz⟩
  refine ⟨seqNextF32_of_zero, hvalue, fun ho hstate hinc => ?_⟩
  have hfirst : e = 0xD6790899#32 := by
    have hout : advanceOutput 0x5E4231E510087785#64 = 0xD6790899#32 := by decide
    rw [← hout, ← hstate]
    exact drawSeen_alone 0 ho
  have hsecond : r = 0xFFFFFFFF#32 := by
    have hout : advanceOutput (lcgNext 0x5E4231E510087785#64 Registers.reset.inc) = 0xFFFFFFFF#32 := by decide
    rw [← hout, ← hstate, ← hinc]
    exact drawSeen_alone 1 ho
  obtain ⟨x, hrun, -, -, hone⟩ := hvalue (by rw [hfirst]; decide)
  refine ⟨hfirst, hsecond, ?_⟩
  rw [hrun, hone.mpr (by rw [hfirst, hsecond]; decide)]

/-- Settles O48: a pattern's datum is held by the format, and a mantissa draw is odd. -/
theorem roundingIsExactOnBinary32 : Obligations.RoundingIsExactOnBinary32 := by
  refine ⟨fun n x hx => roundF32_datum32 n hx, fun r => ?_⟩
  have hodd := mantissaOf_odd r
  omega

/-- Settles O49: the difference of equal ends is +0, its product with a uniform is +0, and adding +0 changes -0
alone. -/
theorem frangeOfEqualEnds : Obligations.FrangeOfEqualEnds := by
  intro P f h hf
  obtain ⟨u, k, -, -, hu⟩ := exists_seqNextF32_eq h
  obtain ⟨mant, exp, hdu⟩ := exists_datum32_of_le_one (seqNextF32_le_one hu)
  have hending : (seqFrange P f f h).ending = .value (widen64 P (addF32 P (signedZero false) f)) := by
    rw [seqFrange_of_seqNextF32 P hu, subF32_self P hf, mulF32_signedZero P hdu]
    rfl
  rw [hending]
  by_cases h0 : IsZero32 f
  · obtain ⟨neg, rfl⟩ := isZero32_iff.mp h0
    rw [addF32_signedZero_signedZero, Bool.false_and]
    cases neg with
    | false => exact ⟨fun _ => rfl, fun hne => absurd hne (by decide)⟩
    | true => exact ⟨fun hne => absurd rfl hne, fun _ => rfl⟩
  · rw [signedZero_addF32 P (notNaN_of_finite hf) h0]
    exact ⟨fun _ => rfl, fun hzero => absurd (.inr hzero) h0⟩

/-- Settles O50: a zero deviation leaves a zero to add to the mean, whatever the cosine and the square root. -/
theorem normalOfZeroDeviation : Obligations.NormalOfZeroDeviation := by
  refine ⟨fun h => ?_, fun P m d u1 u2 h h1 h2 hm hd hu1 hu2 hcos hsqrt => ?_⟩
  · obtain ⟨u, k, -, -, hu⟩ := exists_seqNextF32_eq h
    exact ⟨u, _, hu, seqNextF32_le_one hu⟩
  · obtain ⟨b, rfl⟩ := isZero32_iff.mp hd
    obtain ⟨nc, mc, ec, hcos⟩ := hcos
    obtain ⟨ns, ms, es, hsqrt⟩ := hsqrt
    have hbox : boxMuller P m (signedZero b) u1 u2 = addF32 P m (signedZero ((b ^^ nc) ^^ ns)) := by
      rw [boxMuller, signedZero_mulF32 P hcos, signedZero_mulF32 P hsqrt]
    rw [seqNormal_of_seqNextF32 P hu1 hu2, hbox]
    refine ⟨rfl, ?_⟩
    obtain hsame | ⟨hmean, hsum⟩ := addF32_signedZero_cases P hm ((b ^^ nc) ^^ ns)
    · exact .inl (by rw [hsame])
    · exact .inr ⟨hmean, by rw [hsum, widen64_zero]⟩

/-- Settles O51: GETSTATE answers the `STATE` at its turn, and the SEED that follows reads no register. -/
theorem randomizeReseeds : Obligations.RandomizeReseeds := by
  refine ⟨fun t h => ?_, by decide, ?_⟩
  · have hrun := seqRandomize_eq t h
    rw [encode_getstate, encode_seed] at hrun
    refine ⟨hrun, ?_, ?_, fun ho => by rw [arbitrate_alone ho]⟩
    · rw [hrun, afterCommand_regs, ← encode_seed, transact_ok (decode_encode _), instrEffect_seed]
      rfl
    · rw [hrun, afterCommand_issued, afterCommand_issued, List.append_assoc]
      rfl
  · rw [seedEffect_eq]
    decide

/-- Settles O52: every sequence but BOUNDED and RANDOMIZE is made of one draw or of one or two NEXTF32. -/
theorem hostSequenceDrawCounts : Obligations.HostSequenceDrawCounts := by
  intro P fuel h
  obtain ⟨u1, k1, hk1, hk1', h1⟩ := exists_seqNextF32_eq h
  obtain ⟨u2, k2, hk2, hk2', h2⟩ := exists_seqNextF32_eq (afterDraws k1 h)
  refine ⟨?_, ⟨k1, hk1, hk1', ?_, ?_, fun f t => ?_⟩, fun m d => ⟨k1 + k2, by omega, by omega, ?_⟩,
    fun f t hne hs => ?_⟩
  · rw [seqAdvance_eq, afterDraws_issued]
  · rw [h1, afterDraws_issued]
  · rw [seqNextF64_of_seqNextF32 P h1, afterDraws_issued]
  · rw [seqFrange_of_seqNextF32 P h1, afterDraws_issued]
  · rw [seqNormal_of_seqNextF32 P h1 h2, afterDraws_issued, afterDraws_issued, List.append_assoc, draws, draws, draws,
      List.replicate_append_replicate]
  · rw [seqRanged_of_span_ne_zero fuel h hne hs]
    exact andThen_done_host _ _

/-- Settles O53: each of the sequence's own commands is the encoding of an instruction, so the block answers it with a
value. -/
theorem hostSequencesAreCommandStreams : Obligations.HostSequencesAreCommandStreams := by
  intro P fuel p h
  obtain ⟨cs, hlegal, hhost⟩ := exists_legal_afterCommands P fuel p h
  obtain ⟨hfault, hclz⟩ := faultsWithin_runPseudo P fuel p h
  rw [hhost, afterCommands_eq]
  refine ⟨arbitrated cs h.others, rfl, rfl, ?_, fun ho z hz => ?_, fun he => (hfault _ he).1 rfl, hclz,
    fun hwf e he => ?_⟩
  · rwa [requesterCommands_zero_arbitrated]
  · rw [ho, arbitrated_alone] at hz
    obtain ⟨c, -, rfl⟩ := List.mem_map.mp hz
    rfl
  · simp [(hfault e he).2] at hwf

/-- Settles O54: binary64 holds every finite binary32 magnitude, with a lower exponent. -/
theorem wideningIsExact : Obligations.WideningIsExact := sameValue_widen64

/-- Settles O55: NEXTF64 runs NEXTF32 and widens its value. -/
theorem nextF64WidensNextF32 : Obligations.NextF64WidensNextF32 := by
  intro P h
  obtain ⟨u, k, -, -, hu⟩ := exists_seqNextF32_eq h
  refine ⟨u, _, hu, widen64 P u, seqNextF64_of_seqNextF32 P hu, sameValue_widen64 P u, ?_, ?_⟩
  · rintro rfl
    exact widen64_zero P
  · rintro rfl
    exact widen64_one P

end Sys2Proof.Claims

/-! SUPPORT. The family of 60_exceptions.md: illegal words and what the block makes of them, the edges at which a step
answers, idle and reset edges in a row, runs of the checked step, and systems of several blocks; the obligations
are settled from these. -/

namespace Sys2Proof.Machine

/-! ## Illegal command words (60_exceptions.md R201 to R203) -/

/-- The fields that make a word illegal, as R68 names them. -/
theorem legal_eq_false_iff_fields (c : Command) : c.legal = false ↔
    (c.op.extractLsb' 3 5 ≠ 0#5 ∨ c.op.extractLsb' 0 3 = 0#3 ∨ c.op.extractLsb' 0 3 = 6#3 ∨
      c.op.extractLsb' 0 3 = 7#3) := by
  simp only [Command.legal, OpByte.rsvZero, OpByte.opcAssigned, Bool.and_eq_false_iff, beq_eq_false_iff_ne,
    bne_eq_false_iff_eq, or_assoc]

/-- The decoder rejects an illegal word by its name. -/
theorem decode_of_illegal {c : Command} (h : c.legal = false) : decode c = .error (.illegalCommand c.op) := by
  obtain ⟨e, he⟩ := (legal_eq_false_iff_decode_error c).mp h
  obtain ⟨-, hd⟩ | ⟨-, hd⟩ | ⟨-, hd⟩ | ⟨-, hd⟩ | ⟨-, hd⟩ | ⟨-, hd⟩ := decode_cases c <;>
    cases he.symm.trans hd
  exact hd

theorem transact_of_illegal {c : Command} (h : c.legal = false) (r : Registers) :
    transact c r = (errorResponse, r) := transact_error (decode_of_illegal h) r

theorem commandLatency_of_illegal {c : Command} (h : c.legal = false) : commandLatency c = Config.LAT_ILLEGAL := by
  simp only [commandLatency, decode_of_illegal h]

theorem errorResponse_eq : errorResponse = ⟨0#64, true⟩ := rfl

/-- The error bit of a response marks the illegal commands. -/
theorem transact_err_eq (c : Command) (r : Registers) : (transact c r).1.err = !c.legal := by
  cases hl : c.legal with
  | true =>
    obtain ⟨i, hi⟩ := (legal_iff_decode_ok c).mp hl
    simp [transact_ok hi]
  | false => simp [transact_of_illegal hl]

/-! ## Streams without their illegal commands (R202, R207) -/

theorem registersAfter_filter_legal (cs : List Command) (r : Registers) :
    registersAfter (cs.filter Command.legal) r = registersAfter cs r := by
  induction cs generalizing r with
  | nil => rfl
  | cons c cs ih =>
    cases hl : c.legal with
    | true => rw [List.filter_cons_of_pos hl]; exact ih _
    | false => simp [registersAfter, hl, transact_of_illegal hl, ih]

theorem responsesTo_filter_legal (cs : List Command) (r : Registers) :
    responsesTo (cs.filter Command.legal) r = (responsesTo cs r).filter fun a => !a.err := by
  induction cs generalizing r with
  | nil => rfl
  | cons c cs ih =>
    cases hl : c.legal with
    | true => simp [responsesTo, hl, transact_err_eq, ih]
    | false => simp [responsesTo, hl, transact_of_illegal hl, ih]

/-! ## When a step answers (R200, R205) -/

/-- An edge with `rst` = 1 is a reset edge, whatever else holds. -/
theorem step_of_rst {s : State} (h : s.pinsIn.rst = true) : step s = .next s.resetEdge := by
  simp only [step, event_reset h]

theorem step_of_idle {s : State} (h : s.event = .idle) : step s = .next s.clocked := by simp only [step, h]

/-- A step answers, or it stops at a reset cut short: there is no third case. -/
theorem step_answers_or_resetTooShort (s : State) :
    ((s.pinsIn.rst = true ∨ s.resetCutShort = false) ∧ ∃ t, step s = .next t) ∨
    (s.pinsIn.rst = false ∧ s.resetCutShort = true ∧ step s = .fault .resetTooShort) := by
  cases hrst : s.pinsIn.rst with
  | true => exact .inl ⟨.inl rfl, _, step_of_rst hrst⟩
  | false =>
    cases hcut : s.resetCutShort with
    | true => exact .inr ⟨rfl, rfl, step_of_resetCutShort hrst hcut⟩
    | false => exact .inl ⟨.inr rfl, exists_step_of_not_resetCutShort hcut⟩

/-! ## Idle edges in a row (R213) -/

theorem runEdges_idle {n : Nat} {s : State} (hfree : s.inflight = none) (hcut : s.resetCutShort = false)
    (hquiet : ∀ k < n, (Claims.sample s k).rst = false ∧ (Claims.sample s k).cmdValid = false) :
    responsesSeen n s = [] ∧ ∃ t, runEdges n s = .next t ∧ t.regs = s.regs ∧ t.inflight = none := by
  induction n generalizing s with
  | zero => exact ⟨rfl, s, rfl, rfl, hfree⟩
  | succ n ih =>
    obtain ⟨hrst, hvalid⟩ := sample_zero s ▸ hquiet 0 n.succ_pos
    have hstep := step_of_idle (event_idle hrst hcut hfree hvalid)
    obtain ⟨hseen, t, hrun, hregs, ht⟩ := ih (s := s.clocked) hfree (resetCutShort_of_rstEdges_zero rfl)
      fun k hk => by rw [sample_step hstep]; exact hquiet (k + 1) (Nat.succ_lt_succ hk)
    refine ⟨?_, t, (runEdges_of_step hstep n).trans hrun, hregs, ht⟩
    rw [responsesSeen_succ hstep, presented_of_rsp_none (clocked_rsp s), hseen]
    rfl

/-! ## Reset edges in a row (R205, 70_reset_and_hazards.md R221 to R223) -/

/-- Reset has been held for `edges` edges up to now, at least one of them: the block is as reset leaves it (log 4). -/
structure State.HeldInReset (s : State) (edges : Nat) : Prop where
  regs_eq : s.regs = Registers.reset
  inflight_none : s.inflight = none
  rsp_none : s.rsp = none
  rstEdges_eq : s.rstEdges = edges

theorem heldInReset_resetEdge (s : State) : s.resetEdge.HeldInReset (s.rstEdges + 1) := ⟨rfl, rfl, rfl, rfl⟩

/-- Reset edges from any state: no response is presented, and after the first the block is held in reset. -/
theorem runEdges_reset {n : Nat} {s : State} (hhigh : ∀ k < n + 1, (Claims.sample s k).rst = true) :
    responsesSeen (n + 1) s = [] ∧ ∃ t, runEdges (n + 1) s = .next t ∧ t.HeldInReset (s.rstEdges + (n + 1)) := by
  induction n generalizing s with
  | zero =>
    have hstep := step_of_rst (sample_zero s ▸ hhigh 0 Nat.one_pos)
    refine ⟨?_, _, runEdges_of_step hstep 0, heldInReset_resetEdge s⟩
    rw [responsesSeen_succ hstep, presented_of_rsp_none (resetEdge_rsp s)]
    rfl
  | succ n ih =>
    have hstep := step_of_rst (sample_zero s ▸ hhigh 0 (Nat.succ_pos _))
    obtain ⟨hseen, t, hrun, ht⟩ := ih (s := s.resetEdge) fun k hk => by
      rw [sample_step hstep]; exact hhigh (k + 1) (Nat.succ_lt_succ hk)
    rw [resetEdge_rstEdges, Nat.add_assoc, Nat.add_comm 1] at ht
    refine ⟨?_, t, (runEdges_of_step hstep _).trans hrun, ht⟩
    rw [responsesSeen_succ hstep, presented_of_rsp_none (resetEdge_rsp s), hseen]
    rfl

/-- A reset held long enough is not cut short. -/
theorem State.HeldInReset.not_resetCutShort {s : State} {edges : Nat} (h : s.HeldInReset edges)
    (hlong : Config.RESET_CYCLES ≤ edges) : s.resetCutShort = false := by
  simp [State.resetCutShort, h.rstEdges_eq, hlong]

/-- The pins of a host that holds reset for `n` edges. -/
theorem sample_replicate_reset {s : State} {n : Nat} {ps : List PortIn}
    (hin : s.inputs = List.replicate n PortIn.reset ++ ps) {k : Nat} (hk : k < n) :
    (Claims.sample s k).rst = true := by
  simp [Claims.sample, hin, List.getD_eq_getElem?_getD, List.getElem?_append, hk, PortIn.reset]

/-! ## Several blocks (R211) -/

/-- An edge of block `k` of a system sets at most the `k`-th entry. -/
theorem stepInstance_cases (k : Nat) (sys : List State) :
    stepInstance k sys = sys ∨ ∃ t, stepInstance k sys = sys.set k t := by
  unfold stepInstance
  split
  next => exact .inl rfl
  next s _ =>
    split
    next t _ => exact .inr ⟨t, rfl⟩
    next => exact .inl rfl
    next => exact .inl rfl

theorem stepInstance_of_step {k : Nat} {sys : List State} {s t : State} (hk : sys[k]? = some s)
    (h : step s = .next t) : stepInstance k sys = sys.set k t := by simp only [stepInstance, hk, h]

theorem length_stepInstance (k : Nat) (sys : List State) : (stepInstance k sys).length = sys.length := by
  obtain h | ⟨t, h⟩ := stepInstance_cases k sys <;> simp [h]

theorem getElem?_stepInstance_of_ne {k j : Nat} (hne : k ≠ j) (sys : List State) :
    (stepInstance k sys)[j]? = sys[j]? := by
  obtain h | ⟨t, h⟩ := stepInstance_cases k sys
  · rw [h]
  · rw [h, List.getElem?_set_ne hne]

end Sys2Proof.Machine

namespace Sys2Proof.Safety

open Sys2Proof.Machine

/-! ## The checked step (60_exceptions.md R201, last sentence) -/

/-- An edge that accepts an illegal word charges the run. -/
theorem edgeFault_of_illegal {s : State} {c : Command} (he : s.event = .command c) (hc : c.legal = false) :
    edgeFault s = some (.illegalCommand c.op) := by
  simp only [edgeFault, he, decode_of_illegal hc]

theorem checkedStep_of_edgeFault {s : State} {f : Fault} (h : edgeFault s = some f) : checkedStep s = .fault f := by
  simp only [checkedStep, h]

/-- Where the checked step answers, it is the step, and a command accepted there is legal. -/
theorem checkedStep_next {s t : State} (h : checkedStep s = .next t) :
    step s = .next t ∧ ∀ c, s.event = .command c → c.legal = true := by
  constructor
  · unfold checkedStep at h
    split at h
    next => cases h
    next => exact h
  · intro c he
    by_contra hill
    rw [checkedStep_of_edgeFault (edgeFault_of_illegal he (Bool.eq_false_of_not_eq_true hill))] at h
    cases h

theorem safeFor_succ {n : Nat} {s : State} (h : safeFor (n + 1) s = true) :
    ∃ t, checkedStep s = .next t ∧ safeFor n t = true := by
  unfold safeFor at h
  split at h
  next t ht => exact ⟨t, ht, h⟩
  next => cases h
  next => cases h

/-- An edge at which only a legal command is accepted keeps a record of legal commands. -/
theorem next_accepted_legal {b : ServiceRecord} {s : State} (hb : ∀ c ∈ b.accepted, c.legal = true)
    (hs : ∀ c, s.event = .command c → c.legal = true) : ∀ c ∈ (b.next s).accepted, c.legal = true := by
  cases he : s.event with
  | reset => simp [next_of_reset b he]
  | resetTooShort => simpa only [ServiceRecord.next, he] using hb
  | busy f => rwa [next_of_busy b he]
  | command c =>
    rw [next_of_command b he]
    exact List.forall_mem_append.mpr ⟨hb, List.forall_mem_singleton.mpr (hs c he)⟩
  | idle => rwa [next_of_idle b he]

/-- Any number of edges that the checked step lets through, from any record of legal commands. -/
theorem safe_run {n : Nat} {b : ServiceRecord} {s : State} (hsafe : safeFor n s = true)
    (hb : ∀ c ∈ b.accepted, c.legal = true) :
    (∃ t, runEdges n s = .next t) ∧ ∀ c ∈ (serviceRecord n b s).accepted, c.legal = true := by
  induction n generalizing b s with
  | zero => exact ⟨⟨s, rfl⟩, hb⟩
  | succ n ih =>
    obtain ⟨u, hu, hrest⟩ := safeFor_succ hsafe
    obtain ⟨hstep, hlegal⟩ := checkedStep_next hu
    rw [runEdges_of_step hstep, serviceRecord_succ hstep]
    exact ih hrest (next_accepted_legal hb hlegal)

end Sys2Proof.Safety

namespace Sys2Proof.Claims

open Sys2Proof.Machine

/-- Settles O25: the fields make the word illegal, so its transaction is the error response with the registers kept,
and it is answered as every accepted command is. -/
theorem illegalCommandResponse : Obligations.IllegalCommandResponse := by
  intro s c hacc hfields
  have hill := (legal_eq_false_iff_fields c).mpr hfields
  refine ⟨?_, ?_, fun hlow => ?_⟩
  · rw [step_of_accepts hacc, acceptCommand_error (decode_of_illegal hill)]
    rfl
  · exact Safety.checkedStep_of_edgeFault (Safety.edgeFault_of_illegal (event_command_iff_accepts.mpr hacc) hill)
  · rw [← commandLatency_of_illegal hill] at hlow ⊢
    obtain ⟨t, hrun, -, ht⟩ := answers_runEdges hacc hlow
    rw [transact_of_illegal hill, errorResponse_eq] at ht
    exact ⟨t, hrun, ht.rsp_eq, busy_eq_false_iff.mpr ht.inflight_none, ht.regs_eq⟩

/-- Settles O26, by induction on the stream: an illegal command keeps the registers and its response has the error
bit, which no legal one's has. -/
theorem illegalCommandsAreInvisible : Obligations.IllegalCommandsAreInvisible :=
  fun cs r => ⟨(registersAfter_filter_legal cs r).symm, (responsesTo_filter_legal cs r).symm⟩

/-- Settles O27: a step answers or stops at a reset cut short, and the two exclude each other. -/
theorem stepNeverFails : Obligations.StepNeverFails := by
  intro s
  obtain ⟨hok, t, ht⟩ | ⟨hrst, hcut, hfault⟩ := step_answers_or_resetTooShort s
  · have hnot : ¬ (s.pinsIn.rst = false ∧ s.resetCutShort = true) := by
      rintro ⟨hrst, hcut⟩
      simp [hrst, hcut] at hok
    simp [ht, hok, hnot]
  · simp [hfault, hrst, hcut, eq_comm]

/-- Settles O31, by induction on the edges: each passes and moves nothing else. -/
theorem idleBlockHoldsItsRegisters : Obligations.IdleBlockHoldsItsRegisters := by
  intro n s hbusy hcut hquiet
  obtain ⟨hseen, t, hrun, hregs, hfree⟩ :=
    runEdges_idle (busy_eq_false_iff.mp hbusy) hcut fun k hk => hquiet k (Nat.lt_succ_of_lt hk)
  exact ⟨hseen, t, hrun, hregs, busy_eq_false_iff.mpr hfree⟩

/-- Settles O40, by induction on the edges, from the empty record. -/
theorem safeRunsAcceptOnlyLegalCommands : Obligations.SafeRunsAcceptOnlyLegalCommands :=
  fun _ _ hsafe => Safety.safe_run hsafe (List.forall_mem_nil _)

/-- Settles O42: an edge sets one entry of the list; and a long enough reset leaves a free block with the reset
registers, on which a driven stream is its transactions (O32). -/
theorem instancesShareNothing : Obligations.InstancesShareNothing := by
  refine ⟨fun k j sys => ⟨length_stepInstance k sys, fun hne => getElem?_stepInstance_of_ne hne sys,
    fun s hs t ht => ?_⟩, fun n cs s hlong hin => ?_⟩
  · obtain ⟨hlt, -⟩ := List.getElem?_eq_some_iff.mp hs
    rw [stepInstance_of_step hs ht, List.getElem?_set_self hlt]
  · obtain ⟨m, rfl⟩ := Nat.exists_eq_add_of_le' (Nat.le_trans reset_cycles_pos hlong)
    obtain ⟨hseen, t, hrun, ht⟩ := runEdges_reset fun k hk => sample_replicate_reset hin hk
    have htin : t.inputs = driveAll cs ++ [] := by simp [runEdges_inputs hrun, hin]
    obtain ⟨hdriven, -⟩ := drivenPortRefinesTransactions cs t [] (busy_eq_false_iff.mpr ht.inflight_none)
      (ht.not_resetCutShort (Nat.le_trans hlong (Nat.le_add_left _ _))) htin rfl
    rw [responsesSeen_add hrun, hseen, hdriven, ht.regs_eq, List.nil_append]

/-- Settles O37: the edge is a reset edge, and `rst` = 1 alone takes away readiness and the response before it. -/
theorem resetComesFirst : Obligations.ResetComesFirst :=
  fun s hrst => ⟨s.resetEdge, step_of_rst hrst, rfl, rfl, rfl, by simp [State.presented, hrst],
    by simp [State.cmdReady, hrst], rfl⟩

end Sys2Proof.Claims

/-! SUPPORT. The family of 70_reset_and_hazards.md: the reset registers as `SEED DEFAULT_SEED` leaves them and the
draw they give; reset edges in a row stand with the family of 60_exceptions.md. -/

namespace Sys2Proof.Claims

open Sys2Proof.Machine

/-- R221: SEED of the default seed computes the reset registers. -/
theorem seedEffect_default_regs : (seedEffect Config.DEFAULT_SEED).2 = Registers.reset := by
  obtain ⟨-, -, -, -, -, -, -, -, hseed⟩ := resetStateValues
  exact hseed

/-- R222: the first draw after reset. -/
theorem next32Effect_reset_response : (next32Effect Registers.reset).1 = ⟨0xBC69701D#64, false⟩ := by
  obtain ⟨-, -, -, -, -, -, hdraw⟩ := next32Result
  rw [hdraw]

/-- Settles O35: after the first of the edges the block is held in reset, whatever was in flight, and enough of them
let it leave. -/
theorem resetLeavesDefaultSeededBlock : Obligations.ResetLeavesDefaultSeededBlock := by
  rw [Obligations.ResetLeavesDefaultSeededBlock, seedEffect_default_regs]
  refine ⟨fun n s hlong hhigh => ?_, rfl, next32Effect_reset_response⟩
  obtain ⟨m, rfl⟩ := Nat.exists_eq_add_of_le' (Nat.le_trans reset_cycles_pos hlong)
  obtain ⟨hseen, t, hrun, ht⟩ := runEdges_reset hhigh
  exact ⟨hseen, t, hrun, ht.regs_eq, busy_eq_false_iff.mpr ht.inflight_none, ht.rsp_none,
    ht.not_resetCutShort (Nat.le_trans hlong (Nat.le_add_left _ _)), runEdges_inputs hrun⟩

end Sys2Proof.Claims
